-- ==== Sys2Proof/Word.lean ====
section
/-! DEFINITION. The value types of the block (00_scope.md R6, R7): bytes, logic levels, the value a line holds, the seven
lines, one value per line, the frame and the pin-level event alphabet. -/

namespace Sys2Proof

/-- A byte (R6). -/
abbrev Byte := BitVec 8

/-- A logic level a pin is driven to (R7). -/
inductive Level where
  | low
  | high
deriving DecidableEq, Repr

/-- The value a line holds (R7, R14). `x`: nothing has driven the line since reset, and no rule computes with it as if it
were a level. -/
inductive LineVal where
  | x
  | low
  | high
deriving DecidableEq, Repr

/-- A line that was driven to a level holds that level (R14). -/
def Level.val : Level → LineVal
  | .low => .low
  | .high => .high

/-- The seven logical lines (R7, R13). `d0` to `d3` are `D[0]` to `D[3]`, wired to the controller's pins D4 to D7. -/
inductive Line where
  | rs
  | rw
  | en
  | d0
  | d1
  | d2
  | d3
deriving DecidableEq, Repr

/-- One value for each of the seven lines. -/
structure Lines (α : Type) where
  rs : α
  rw : α
  en : α
  d0 : α
  d1 : α
  d2 : α
  d3 : α
deriving DecidableEq, Repr

/-- A frame (R51): one byte with the level of the register-select line it is sent under. -/
structure Frame where
  rs : Level
  byte : Byte
deriving DecidableEq, Repr

/-- One call of the consumed GPIO capability at the level of logical lines (R7, R8). -/
inductive Event where
  | cfg (l : Line)
  | wr (l : Line) (v : Level)
  | dly (n : Nat)
deriving DecidableEq, Repr

end Sys2Proof
end

