-- ==== Sys2Proof/Syntax.lean ====
section
/-! DEFINITION. The instructions, one constructor per row of spec/opcode_table.json, with the operands of 30_encoding.md R50,
and the words they are read from: a request at the port (R48, R50) and a FRAME9 word (R51). -/

namespace Sys2Proof

/-- The eight bytes of a glyph, `data[0]` to `data[7]` (R50: "exactly 8 bytes of pixel-row data"; a different count cannot be
expressed). -/
structure Glyph where
  row0 : Byte
  row1 : Byte
  row2 : Byte
  row3 : Byte
  row4 : Byte
  row5 : Byte
  row6 : Byte
  row7 : Byte
deriving DecidableEq, Repr

/-- The twenty rows of the opcode table: eleven operations (R49) and nine frames (R54). -/
inductive Instr where
  /-- `init()`, R65. -/
  | init
  /-- `writeString(text)`, R68. -/
  | writeString (text : List Byte)
  /-- `writeInt(number)`, R69. -/
  | writeInt (number : BitVec 32)
  /-- `clearDisplay()`, R70. -/
  | clearDisplay
  /-- `gotoxy(x, y)`, R71. -/
  | gotoxy (x y : Byte)
  /-- `writeCustomChar(x, y, slot)`, R73. -/
  | writeCustomChar (x y slot : Byte)
  /-- `clearXY(x, y)`, R72. -/
  | clearXY (x y : Byte)
  /-- `createCustomChar(slot, data)`, R74. -/
  | createCustomChar (slot : Byte) (data : Glyph)
  /-- `writeCommand(byte)`, R75. -/
  | writeCommand (byte : Byte)
  /-- `writeData(byte)`, R76. -/
  | writeData (byte : Byte)
  /-- `transferNibble(nibble, bitCount)`, R78. -/
  | transferNibble (nibble : Byte) (bitCount : BitVec 3)
  /-- FRAME.WAKE33, the frame `0 0011 0011` of R54. -/
  | frameWake33
  /-- FRAME.WAKE32, the frame `0 0011 0010` of R54. -/
  | frameWake32
  /-- FRAME.FUNCSET, the frame `0 0010 1000` of R54. -/
  | frameFuncset
  /-- FRAME.CLEAR, the frame `0 0000 0001` of R54. -/
  | frameClear
  /-- FRAME.DISPON, the frame `0 0000 1100` of R54. -/
  | frameDispon
  /-- FRAME.ENTRY, the frame `0 0000 0110` of R54. -/
  | frameEntry
  /-- FRAME.SETCGRAM, the frame `0 01ss s000` of R54. -/
  | frameSetCgram (s : BitVec 3)
  /-- FRAME.SETDDRAM, the frame `0 1aaa aaaa` of R54. -/
  | frameSetDdram (a : BitVec 7)
  /-- FRAME.DATA, the frame `1 dddd dddd` of R54. -/
  | frameData (d : Byte)
deriving DecidableEq, Repr

/-- What stands at the request port (R48): the operation code and the operand ports of R50. A port that the selected operation
does not name is not read. -/
structure Request where
  op : BitVec 4
  x : Byte := 0#8
  y : Byte := 0#8
  slot : Byte := 0#8
  byte : Byte := 0#8
  nibble : Byte := 0#8
  bitCount : BitVec 3 := 0#3
  number : BitVec 32 := 0#32
  text : List Byte := []
  data : Glyph := ⟨0#8, 0#8, 0#8, 0#8, 0#8, 0#8, 0#8, 0#8⟩
deriving DecidableEq, Repr

/-- A word the block is asked to run: a request (layer REQ of R47), or one frame word handed to the framer (layer FRAME9 of
R47 and R51; log 1). -/
inductive PortWord where
  | req (r : Request)
  | frame9 (w : BitVec 9)
deriving DecidableEq, Repr

end Sys2Proof
end

