-- ==== Sys2Proof/Machine/Operands.lean ====
section
/-! DEFINITION. The fixed parameters of 00_scope.md R5 and the assembly of every operand (30_encoding.md R52, R55 to R58): the
nibbles of a byte, the DDRAM and CGRAM address bytes, decimal text, the bytes of a glyph and the level of a bit. -/

namespace Sys2Proof.Machine

/-! ## Parameters with a fixed value (R5) -/

/-- `RS_CMD`, the level of RS for a command (R5, R51; PRESUMED by the spec's G1, log 9). -/
def rsCmd : Level := .low

/-- `RS_DATA`, the level of RS for data (R5, R51; PRESUMED by the spec's G1, log 9). -/
def rsData : Level := .high

/-- `RW_WRITE`: "holds read/write line low (write-only mode)" (R5). -/
def rwWrite : Level := .low

/-- `BITCOUNT_DEFAULT` (R5). -/
def bitCountDefault : BitVec 3 := 4#3

/-- `FUNCSET_BYTE` (R5, D3, log 24). -/
def funcsetByte : Byte := 0x28#8

/-- The first "legacy 8-bit-mode compatibility write" of `init` (R54). -/
def wake33Byte : Byte := 0x33#8

/-- The second of the same (R54). -/
def wake32Byte : Byte := 0x32#8

/-- Clear-display (R54, R70). -/
def clearByte : Byte := 0x01#8

/-- Display-on with cursor off and no blink (R54). -/
def disponByte : Byte := 0x0C#8

/-- Entry-mode-set with auto-increment (R54). -/
def entryByte : Byte := 0x06#8

/-- `CH_0` (R58; PRESUMED ASCII by the spec's G2, log 10). -/
def chZero : Nat := 0x30

/-- `CH_MINUS` (R58, log 10). -/
def chMinus : Byte := 0x2D#8

/-- `CH_SPACE` (R58, log 10). -/
def chSpace : Byte := 0x20#8

/-- `ROW_BASE[y]` for the rows 0 to 3 (R5, R31); no other row has a base (R60). -/
def rowBase (y : Byte) : Option Nat :=
  match y.toNat with
  | 0 => some 0x00
  | 1 => some 0x40
  | 2 => some 0x14
  | 3 => some 0x54
  | _ => none

/-! ## Bits and nibbles -/

/-- The level a bit is driven as: HIGH for 1, LOW for 0 (R53, `lv` of R77). -/
def lv (bit : Bool) : Level := if bit then .high else .low

/-- The high nibble of a frame byte, `b >> 4` (R52). -/
def hiNibble (b : Byte) : Byte := b >>> 4

/-- The low nibble of a frame byte, `b & 0x0F` (R52). -/
def loNibble (b : Byte) : Byte := b &&& 0x0F#8

/-- The four data lines in ascending index order, each with its index (R34). -/
def dataLines : List (Nat × Line) := [(0, .d0), (1, .d1), (2, .d2), (3, .d3)]

/-! ## Command bytes with a field -/

/-- The set-DDRAM-address byte of a 7-bit address, `0x80 | a` (R55). -/
def setDdramByte (a : BitVec 7) : Byte := 0x80#8 ||| a.setWidth 8

/-- The set-CGRAM-address byte of a slot, `0x40 | (s << 3)` (R56). -/
def setCgramByte (s : BitVec 3) : Byte := 0x40#8 ||| (s.setWidth 8 <<< 3)

/-- `slot & 0x07`: out-of-range slots wrap (R56, R61). -/
def slotIndex (slot : Byte) : BitVec 3 := (slot &&& 0x07#8).setWidth 3

/-- What `gotoxy(x, y)` addresses (R55, R60): no row, so no command; the 7-bit address `ROW_BASE[y] + x`; or a sum that does not
fit the 7-bit address field. Base and column are added over the integers (90_conflicts.md C1). -/
inductive CellAddress where
  | noRow
  | fits (a : BitVec 7)
  | overflow
deriving DecidableEq, Repr

/-- The DDRAM address of cell (column `x`, row `y`) (R31, R55). -/
def cellAddress (x y : Byte) : CellAddress :=
  match rowBase y with
  | none => .noRow
  | some base => if base + x.toNat ≤ 0x7F then .fits (BitVec.ofNat 7 (base + x.toNat)) else .overflow

/-! ## Text -/

/-- The character of a decimal digit `m < 10`, `CH_0 + m` (R57, R58). -/
def digitChar (m : Nat) : Byte := BitVec.ofNat 8 (chZero + m)

/-- `digits(m)` of R57 by repeated division by ten, on `fuel` divisions at most. -/
def digitsFuel : Nat → Nat → List Byte
  | 0, m => [digitChar m]
  | fuel + 1, m => if m < 10 then [digitChar m] else digitsFuel fuel (m / 10) ++ [digitChar (m % 10)]

/-- `digits(m)` of R57; a number has fewer decimal digits than the fuel given here. -/
def digits (m : Nat) : List Byte := digitsFuel (Nat.log2 m + 1) m

/-- `dec(v)` of R57: canonical decimal text, the sign first; `-v` is taken over the integers. -/
def dec (v : Int) : List Byte := if v < 0 then chMinus :: digits (-v).toNat else digits v.toNat

/-- The eight bytes of a glyph, `data[0]` first (R35, R74). -/
def glyphBytes (g : Glyph) : List Byte := [g.row0, g.row1, g.row2, g.row3, g.row4, g.row5, g.row6, g.row7]

end Sys2Proof.Machine
end

