-- ==== Sys2Proof/Config.lean ====
section
/-! DEFINITION. The implementation parameters of 00_scope.md R5 that are not fixed by the spec: the tunable `T_EN_MS`, and the
OPEN ones as arguments of the model (10_state.md R22 to R24). The parameters whose value R5 fixes are constants of
Machine/Operands.lean. -/

namespace Sys2Proof

/-- The configuration the operations read (R24): fixed data that no operation writes and that reset leaves alone. -/
structure Config where
  /-- `T_EN_MS`, the argument of the delay inside the enable pulse, in milliseconds; the source wants it "a tunable parameter"
  and R5 gives the default 1 (log 8). -/
  tEnMs : Nat := 1
deriving DecidableEq, Repr

/-- A physical pin: the `port` (a GPIO bank) and the `pin` on it (R22). -/
structure Pin where
  port : Nat
  pin : Nat
deriving DecidableEq, Repr

/-- Display width in columns: "16x2 or 20x4" (R5). -/
inductive Columns where
  | c16
  | c20
deriving DecidableEq, Repr

/-- Display height in rows (R5). -/
inductive Rows where
  | r2
  | r4
deriving DecidableEq, Repr

/-- One value for each of the controller's data pins that the block is wired to, D4 to D7 (R7, R13). -/
structure DataPins (α : Type) where
  d4 : α
  d5 : α
  d6 : α
  d7 : α
deriving DecidableEq, Repr

/-- The OPEN parameters of R5, an argument of every definition that speaks of them; nothing the block emits depends on one
(log 11). -/
structure Platform where
  /-- `PinBinding` (R22) and `ControlLines` (R23): which pin each line is bound to. -/
  binding : Lines Pin
  /-- The pin that each of the controller's data pins is wired to: "the physical wiring order" that the index order must match
  (R22; log 28). -/
  wiring : DataPins Pin
  /-- `COLS`. -/
  cols : Columns
  /-- `ROWS`. -/
  rows : Rows
  /-- The GPIO banks whose peripheral clock the platform has enabled before `init` (R96, log 17). -/
  clocks : List Nat
deriving DecidableEq, Repr

end Sys2Proof
end

