-- ==== Sys2Proof/WellFormed.lean ====
section
/-! DEFINITION. Which instructions have operands that the spec gives a meaning to. Widths and counts are in the types (R50);
what is left are the two grounds of 60_exceptions.md R89 that the operands alone decide: a bit count above 4 (R78) and a DDRAM
address sum above 0x7F (R55). An instruction that is not well formed is still an instruction: it decodes, and it is refused with
the reason R89 names. -/

namespace Sys2Proof

/-- `bitCount`: "admitted values 0..4" (R78). -/
def WellFormed.bitCountOk (c : BitVec 3) : Bool := decide (c.toNat ≤ 4)

/-- The cell has no row (then nothing is addressed) or its address fits 7 bits (R55, R60). -/
def WellFormed.cellOk (x y : Byte) : Bool := decide (Machine.cellAddress x y ≠ .overflow)

/-- The operands of `i` give no ground for a refusal. -/
def WellFormed (i : Instr) : Bool :=
  match i with
  | .init => true
  | .writeString _ => true
  | .writeInt _ => true
  | .clearDisplay => true
  | .gotoxy x y => WellFormed.cellOk x y
  | .writeCustomChar x y _ => WellFormed.cellOk x y
  | .clearXY x y => WellFormed.cellOk x y
  | .createCustomChar _ _ => true
  | .writeCommand _ => true
  | .writeData _ => true
  | .transferNibble _ c => WellFormed.bitCountOk c
  | .frameWake33 => true
  | .frameWake32 => true
  | .frameFuncset => true
  | .frameClear => true
  | .frameDispon => true
  | .frameEntry => true
  | .frameSetCgram _ => true
  | .frameSetDdram _ => true
  | .frameData _ => true

end Sys2Proof
end

