-- ==== Sys2Proof/Decode.lean ====
section
/-! DEFINITION. Decoding: from a word at the port to an instruction, total, rejecting by name (30_encoding.md R49, R51, R54,
R59), and after it the encoder, written from the same tables. -/

namespace Sys2Proof

/-- Why a word selects no instruction. -/
inductive Reject where
  /-- `req_op` 11 to 15 (R59). -/
  | reservedRequest (code : BitVec 4)
deriving DecidableEq, Repr

/-- The operation a request selects (R49), with the operand ports it names (R50). -/
def decodeRequest (r : Request) : Except Reject Instr :=
  match r.op.toNat with
  | 0 => .ok .init
  | 1 => .ok (.writeString r.text)
  | 2 => .ok (.writeInt r.number)
  | 3 => .ok .clearDisplay
  | 4 => .ok (.gotoxy r.x r.y)
  | 5 => .ok (.writeCustomChar r.x r.y r.slot)
  | 6 => .ok (.clearXY r.x r.y)
  | 7 => .ok (.createCustomChar r.slot r.data)
  | 8 => .ok (.writeCommand r.byte)
  | 9 => .ok (.writeData r.byte)
  | 10 => .ok (.transferNibble r.nibble r.bitCount)
  | _ => .error (.reservedRequest r.op)

/-- One row of the frame table (R54): the bits of `mask` must be those of `pattern`. -/
structure FrameRow where
  mask : BitVec 9
  pattern : BitVec 9
deriving DecidableEq, Repr

/-- The row fits the word. -/
def FrameRow.fits (row : FrameRow) (w : BitVec 9) : Bool := decide (w &&& row.mask = row.pattern)

/-- FRAME.WAKE33, `0 0011 0011`. -/
def rowWake33 : FrameRow := ⟨0x1FF#9, 0b000110011#9⟩
/-- FRAME.WAKE32, `0 0011 0010`. -/
def rowWake32 : FrameRow := ⟨0x1FF#9, 0b000110010#9⟩
/-- FRAME.FUNCSET, `0 0010 1000`. -/
def rowFuncset : FrameRow := ⟨0x1FF#9, 0b000101000#9⟩
/-- FRAME.CLEAR, `0 0000 0001`. -/
def rowClear : FrameRow := ⟨0x1FF#9, 0b000000001#9⟩
/-- FRAME.DISPON, `0 0000 1100`. -/
def rowDispon : FrameRow := ⟨0x1FF#9, 0b000001100#9⟩
/-- FRAME.ENTRY, `0 0000 0110`. -/
def rowEntry : FrameRow := ⟨0x1FF#9, 0b000000110#9⟩
/-- FRAME.SETCGRAM, `0 01ss s000`. -/
def rowSetCgram : FrameRow := ⟨0x1C7#9, 0b001000000#9⟩
/-- FRAME.SETDDRAM, `0 1aaa aaaa`. -/
def rowSetDdram : FrameRow := ⟨0x180#9, 0b010000000#9⟩
/-- FRAME.DATA, `1 dddd dddd`. -/
def rowData : FrameRow := ⟨0x100#9, 0b100000000#9⟩

/-- The nine rows of the frame table (R54), in its order. -/
def frameRows : List FrameRow :=
  [rowWake33, rowWake32, rowFuncset, rowClear, rowDispon, rowEntry, rowSetCgram, rowSetDdram, rowData]

/-- The frame a FRAME9 word stands for (R51, R54). A command word that no row of R54 lists carries one of the pass-through bytes
of R62, which only `writeCommand` can send: it decodes to that operation (log 2). -/
def decodeFrame (w : BitVec 9) : Instr :=
  if rowWake33.fits w then .frameWake33
  else if rowWake32.fits w then .frameWake32
  else if rowFuncset.fits w then .frameFuncset
  else if rowClear.fits w then .frameClear
  else if rowDispon.fits w then .frameDispon
  else if rowEntry.fits w then .frameEntry
  else if rowSetCgram.fits w then .frameSetCgram (w.extractLsb' 3 3)
  else if rowSetDdram.fits w then .frameSetDdram (w.extractLsb' 0 7)
  else if rowData.fits w then .frameData (w.extractLsb' 0 8)
  else .writeCommand (w.extractLsb' 0 8)

/-- The instruction a word at the port selects. -/
def decode (w : PortWord) : Except Reject Instr :=
  match w with
  | .req r => decodeRequest r
  | .frame9 f => .ok (decodeFrame f)

/-! ## The encoder -/

/-- The word of an instruction (R49, R50, R54): a request with the ports the operation does not name at zero, or the frame row
with its field filled in. -/
def encode (i : Instr) : PortWord :=
  match i with
  | .init => .req { op := 0#4 }
  | .writeString text => .req { op := 1#4, text := text }
  | .writeInt number => .req { op := 2#4, number := number }
  | .clearDisplay => .req { op := 3#4 }
  | .gotoxy x y => .req { op := 4#4, x := x, y := y }
  | .writeCustomChar x y slot => .req { op := 5#4, x := x, y := y, slot := slot }
  | .clearXY x y => .req { op := 6#4, x := x, y := y }
  | .createCustomChar slot data => .req { op := 7#4, slot := slot, data := data }
  | .writeCommand byte => .req { op := 8#4, byte := byte }
  | .writeData byte => .req { op := 9#4, byte := byte }
  | .transferNibble nibble bitCount => .req { op := 10#4, nibble := nibble, bitCount := bitCount }
  | .frameWake33 => .frame9 rowWake33.pattern
  | .frameWake32 => .frame9 rowWake32.pattern
  | .frameFuncset => .frame9 rowFuncset.pattern
  | .frameClear => .frame9 rowClear.pattern
  | .frameDispon => .frame9 rowDispon.pattern
  | .frameEntry => .frame9 rowEntry.pattern
  | .frameSetCgram s => .frame9 (rowSetCgram.pattern ||| (s.setWidth 9 <<< 3))
  | .frameSetDdram a => .frame9 (rowSetDdram.pattern ||| a.setWidth 9)
  | .frameData d => .frame9 (rowData.pattern ||| d.setWidth 9)

/-! ## Words as the opcode table numbers their bits -/

/-- The word at the port whose bits are `w`, `nbits` of them (in whole bytes): a row of at most 8 bits is a REQ row (4 bits of
`req_op`; every operand port is zero and the text empty), a longer one a FRAME9 row (9 bits). No word where bits above the row's
width are set (log 15). -/
def tableWord (nbits w : Nat) : Option PortWord :=
  if nbits ≤ 8 then
    if w < 16 then some (.req { op := BitVec.ofNat 4 w }) else none
  else
    if w < 512 then some (.frame9 (BitVec.ofNat 9 w)) else none

/-- The instruction the decoder reads from the bits `w` of an opcode-table row. -/
def decodeTableWord (nbits w : Nat) : Option Instr :=
  match tableWord nbits w with
  | none => none
  | some word =>
    match decode word with
    | .ok i => some i
    | .error _ => none

end Sys2Proof
end

