-- ==== Sys2Proof/Machine/State.lean ====
section
/-! DEFINITION. The state of the block (10_state.md R12), the reasons a step can stop, and the state after reset (R29). -/

namespace Sys2Proof.Machine

/-- Where the sequencer stands (R20). -/
inductive Seq where
  /-- No operation is running. -/
  | idle
  /-- Operation `op`, with its operands captured at acceptance (R45), is running and `upc` events of its event list have been
  emitted. -/
  | busy (op : Instr) (upc : Nat)
deriving DecidableEq, Repr

/-- The ghost `aptr` (R26): which controller memory the last addressing command selected. Nothing the block emits depends on
it. -/
inductive Aptr where
  | unknown
  | ddram
  | cgram
deriving DecidableEq, Repr

/-- The closed list of refusal reasons (60_exceptions.md R89). -/
inductive Reason where
  /-- Raised by `drive` on a line that no `cfg` has configured (R8, R15, D8). Safe: the model says nothing where the spec gives
  a digital write to such a pin no effect. -/
  | unconfiguredLine (l : Line)
  /-- Raised by the addressing part of `gotoxy`, `clearXY`, `writeCustomChar` when `ROW_BASE[y] + x > 0x7F` (R55, D13). Safe. -/
  | ddramAddressOverflow (x y : Byte)
  /-- Raised by `transferNibble` when `bitCount > 4` (R78, D15). Safe. -/
  | bitCountOutOfRange (c : BitVec 3)
  /-- Raised at the request port by `req_op` 11 to 15 (R59, D23). Safe. -/
  | reservedRequest (code : BitVec 4)
  /-- Raised when a second operation is run while one is running (R46, D18). Safe. -/
  | overlappingRequest
deriving DecidableEq, Repr

/-- The complete state of the model (R12), with the port the host presents its requests at. -/
structure State where
  /-- The parameters an operation reads (R24); fixed data that no operation writes. -/
  config : Config
  /-- The seven output line latches (R13, R14). -/
  line : Lines LineVal
  /-- Whether `cfg(l)` has been issued since reset (R15). -/
  configured : Lines Bool
  /-- The sequencer (R20). -/
  seq : Seq
  /-- Every event emitted since reset, oldest first (R25). -/
  trace : List Event
  /-- Ghost: the controller memory last addressed (R26). -/
  aptr : Aptr
  /-- The refusal mark, set once and never cleared (R10, R12). -/
  refused : Option Reason
  /-- The words presented at the request port and not accepted yet, oldest first (R46, R48). The model's own field (log 3). -/
  port : List PortWord
deriving DecidableEq, Repr

/-- No step faults: "There is no fault outcome and no stuck outcome" (R10, R80; log 26). Safe: the type is empty, so no claim can
rest on a fault. -/
inductive Fault where
deriving DecidableEq, Repr

/-- Why a step gives no next state. -/
inductive Refusal where
  /-- `refuse(reason)` of R10 and R89, raised by the operations of Machine/Ops.lean, with the state it leaves: its `refused` mark
  is set, and its trace and lines hold what was emitted before (R87; logs 5 and 6). Safe: the model stops where the spec gives no
  effect. -/
  | refuse (reason : Reason) (left : State)
  /-- Raised by an arm of `exec` that has no meaning yet. Safe. No arm raises it. -/
  | notModelled (mnemonic : String)
deriving DecidableEq, Repr

/-- The state before any request has been accepted since power was applied (R29, R94, D19): every line X and unconfigured, the
sequencer idle, the trace empty, no refusal; nothing is presented at the port (log 3). -/
def State.reset : State where
  config := { tEnMs := 1 }
  line := ⟨.x, .x, .x, .x, .x, .x, .x⟩
  configured := ⟨false, false, false, false, false, false, false⟩
  seq := .idle
  trace := []
  aptr := .unknown
  refused := none
  port := []

end Sys2Proof.Machine
end

