-- ==== Sys2Proof/Machine/Ops.lean ====
section
/-! DEFINITION. The named operations over the state: the accessors of the lines, the three primitives through which the block
acts on the outside (00_scope.md R8), refusing (R10, R89), accepting an operation (R46, R48), and running one (10_state.md R20).
The block has no exception entry and no return from one (60_exceptions.md R87, R88); `refuse` is all that stops it. -/

namespace Sys2Proof.Machine

/-- The outcome of a step of this machine. -/
abbrev Result := Host.Outcome State Fault Refusal

/-- Go on with `f` from the next state; a stop stays as it is. -/
def andThen (r : Result) (f : State → Result) : Result :=
  match r with
  | .next s => f s
  | .fault e => .fault e
  | .refused e => .refused e

/-! ## One value per line -/

/-- The value of one line. -/
def lineGet {α : Type} (b : Lines α) (l : Line) : α :=
  match l with
  | .rs => b.rs
  | .rw => b.rw
  | .en => b.en
  | .d0 => b.d0
  | .d1 => b.d1
  | .d2 => b.d2
  | .d3 => b.d3

/-- The same values with that of one line replaced. -/
def lineSet {α : Type} (b : Lines α) (l : Line) (v : α) : Lines α :=
  match l with
  | .rs => { b with rs := v }
  | .rw => { b with rw := v }
  | .en => { b with en := v }
  | .d0 => { b with d0 := v }
  | .d1 => { b with d1 := v }
  | .d2 => { b with d2 := v }
  | .d3 => { b with d3 := v }

/-! ## Field updates -/

/-- The sequencer moves to `q` (R20). -/
def State.withSeq (s : State) (q : Seq) : State := { s with seq := q }

/-- The words waiting at the port become `p` (R48). -/
def State.withPort (s : State) (p : List PortWord) : State := { s with port := p }

/-- The refusal mark is set (R89). -/
def State.withRefused (s : State) (r : Reason) : State := { s with refused := some r }

/-- The ghost becomes `a` (R26). -/
def State.withAptr (s : State) (a : Aptr) : State := { s with aptr := a }

/-- One event is appended to the trace (R25). -/
def State.record (s : State) (e : Event) : State := { s with trace := s.trace ++ [e] }

/-- One line latch takes a value (R14). -/
def State.setLine (s : State) (l : Line) (v : LineVal) : State := { s with line := lineSet s.line l v }

/-- A line that is not configured yet comes to hold X; one that is keeps its value ("Idempotent", R8, D7). -/
def State.floatLine (s : State) (l : Line) : State :=
  { s with line := if lineGet s.configured l then s.line else lineSet s.line l .x }

/-- One line is marked configured (R15). -/
def State.setConfigured (s : State) (l : Line) : State := { s with configured := lineSet s.configured l true }

/-- The host presents one more word at the port; it waits behind those already there (R46). It may do so between any two
steps, and the word then stays as it is until it is accepted (log 30, DESIGN CHOICE). -/
def State.present (s : State) (w : PortWord) : State := s.withPort (s.port ++ [w])

/-! ## Refusing -/

/-- `refuse(reason)` (R10, R89): no event of its own, the mark is set, and the run ends. -/
def refuse (r : Reason) (s : State) : Result := .refused (.refuse r (s.withRefused r))

/-! ## The primitives of R8 -/

/-- `cfg(l)`: configure the line as an output; a line not configured before holds X from here, one that was keeps its value. -/
def cfgLine (l : Line) (s : State) : State := ((s.record (.cfg l)).floatLine l).setConfigured l

/-- The effect of `drive(l, v)` on a configured line: the event is recorded and the latch takes the level, also when it already
has it (D17). -/
def writeLine (l : Line) (v : Level) (s : State) : State := (s.record (.wr l v)).setLine l v.val

/-- `drive(l, v)`: refused on a line that is not configured (D8). -/
def drive (l : Line) (v : Level) (s : State) : Result :=
  if lineGet s.configured l then .next (writeLine l v s) else refuse (.unconfiguredLine l) s

/-- `delay_ms(n)`: the event is all that happens. -/
def delayMs (n : Nat) (s : State) : State := s.record (.dly n)

/-- One event of an operation's list, through its primitive. -/
def issue (e : Event) (s : State) : Result :=
  match e with
  | .cfg l => .next (cfgLine l s)
  | .wr l v => drive l v s
  | .dly n => .next (delayMs n s)

/-! ## The ghost -/

/-- The ghost after a frame has been emitted (the table of R26). -/
def aptrAfter (f : Frame) (a : Aptr) : Aptr :=
  if f.rs = rsCmd then
    if f.byte = clearByte then .ddram
    else if f.byte.getLsbD 7 then .ddram
    else if f.byte.getLsbD 6 then .cgram
    else a
  else a

/-! ## Plans: what an operation's pseudocode does -/

/-- One event of an operation's list. `ends` is the frame of which it is the last event, where it is one: the ghost is updated
"when the frame's last event has been emitted" (R26; log 13). -/
structure Micro where
  event : Event
  ends : Option Frame := none
deriving DecidableEq, Repr

/-- What the pseudocode of an operation does (R20): the events in order, and the refusal it reaches after them, if any
(R86: "the first `refuse` reached ends the operation"). -/
structure Plan where
  steps : List Micro
  stop : Option Reason
deriving DecidableEq, Repr

/-- The event list of a plan. -/
def Plan.events (p : Plan) : List Event := p.steps.map Micro.event

/-- Nothing is done. -/
def Plan.nothing : Plan := ⟨[], none⟩

/-- `refuse(reason)` is reached. -/
def Plan.refusing (r : Reason) : Plan := ⟨[], some r⟩

/-- These events are issued, one after another. -/
def Plan.emitting (es : List Event) : Plan := ⟨es.map fun e => { event := e }, none⟩

/-- `p`, to its end, before `q`; a refusal in `p` ends both (R86). -/
def Plan.followedBy (p q : Plan) : Plan :=
  match p.stop with
  | none => ⟨p.steps ++ q.steps, q.stop⟩
  | some r => ⟨p.steps, some r⟩

/-- The plans of a list, one after another. -/
def Plan.sequence : List Plan → Plan
  | [] => .nothing
  | p :: ps => p.followedBy (Plan.sequence ps)

/-- Mark the last of these events as the end of a frame. -/
def markLast (f : Frame) : List Micro → List Micro
  | [] => []
  | [m] => [{ m with ends := some f }]
  | m :: m' :: ms => m :: markLast f (m' :: ms)

/-- The plan emits one whole frame. -/
def Plan.asFrame (f : Frame) (p : Plan) : Plan := ⟨markLast f p.steps, p.stop⟩

/-! ## Running an operation -/

/-- The ghost update of a frame's last event, if the event is one. -/
def State.endFrame (s : State) (ends : Option Frame) : State :=
  match ends with
  | none => s
  | some f => s.withAptr (aptrAfter f s.aptr)

/-- Issue one event of an operation. -/
def emit (m : Micro) (s : State) : Result := andThen (issue m.event s) fun s' => .next (s'.endFrame m.ends)

/-- An operation is accepted when the block is idle and not refused (R46, R48); while another runs it would overlap it, which is
refused (R89). A refused state stays refused (R10; log 7). -/
def accept (i : Instr) (s : State) : Result :=
  match s.refused with
  | some r => .refused (.refuse r s)
  | none =>
    match s.seq with
    | .idle => .next (s.withSeq (.busy i 0))
    | .busy _ _ => refuse .overlappingRequest s

/-- Issue the events that remain, the next one being number `upc`; after the last one the operation is done, or refused where its
plan ends so (R20, R87). -/
def runFrom (i : Instr) (stop : Option Reason) : Nat → List Micro → State → Result
  | upc, [], s =>
    match stop with
    | none => .next (s.withSeq .idle)
    | some r => refuse r (s.withSeq (.busy i upc))
  | upc, m :: ms, s => andThen (emit m (s.withSeq (.busy i upc))) (runFrom i stop (upc + 1) ms)

/-- Run operation `i`, whose plan is `p`, as one atomic step (R20, D25; log 4): accept it, then issue its whole event list. -/
def perform (i : Instr) (p : Plan) (s : State) : Result := andThen (accept i s) (runFrom i p.stop 0 p.steps)

end Sys2Proof.Machine
end

