-- ==== Sys2Proof/Machine/Nibble.lean ====
section
/-! DEFINITION. The nibble-shift and enable-strobe sequencer (45_nibble_strobe.md): `strobe` and `transferNibble`. -/

namespace Sys2Proof.Machine

/-- `strobe()` (R79): EN high, one delay of `T_EN_MS`, EN low. -/
def strobePlan (c : Config) : Plan := .emitting [.wr .en .high, .dly c.tEnMs, .wr .en .low]

/-- Drive the data lines `D[0]` to `D[count-1]` with the low bits of the nibble, bit 0 first (R53). -/
def drivesPlan (nibble : Byte) (count : Nat) : Plan :=
  .emitting ((dataLines.take count).map fun d => .wr d.2 (lv (nibble.getLsbD d.1)))

/-- `transferNibble(nibble, bitCount)` (R78). -/
def transferNibblePlan (c : Config) (nibble : Byte) (bitCount : BitVec 3) : Plan :=
  if 4 < bitCount.toNat then .refusing (.bitCountOutOfRange bitCount)
  else (drivesPlan nibble bitCount.toNat).followedBy (strobePlan c)

/-- transferNibble (R78). -/
def execTransferNibble (nibble : Byte) (bitCount : BitVec 3) (s : State) : Result :=
  perform (.transferNibble nibble bitCount) (transferNibblePlan s.config nibble bitCount) s

end Sys2Proof.Machine
end

