-- ==== Sys2Proof/Machine/Framing.lean ====
section
/-! DEFINITION. The framer (44_framing.md): `frame`, `writeCommand`, `writeData`. -/

namespace Sys2Proof.Machine

/-- `frame(rs, b)` (R77): drive RS, then transfer the high nibble, then the low one (R33, R52). -/
def framePlan (c : Config) (rs : Level) (b : Byte) : Plan :=
  (Plan.sequence
    [.emitting [.wr .rs rs],
      transferNibblePlan c (hiNibble b) bitCountDefault,
      transferNibblePlan c (loNibble b) bitCountDefault]).asFrame ⟨rs, b⟩

/-- `writeCommand(byte)` (R75). -/
def writeCommandPlan (c : Config) (byte : Byte) : Plan := framePlan c rsCmd byte

/-- `writeData(byte)` (R76). -/
def writeDataPlan (c : Config) (byte : Byte) : Plan := framePlan c rsData byte

/-- writeCommand (R75). -/
def execWriteCommand (byte : Byte) (s : State) : Result :=
  perform (.writeCommand byte) (writeCommandPlan s.config byte) s

/-- writeData (R76). -/
def execWriteData (byte : Byte) (s : State) : Result :=
  perform (.writeData byte) (writeDataPlan s.config byte) s

end Sys2Proof.Machine
end

