-- ==== Sys2Proof/Machine/FrameRows.lean ====
section
/-! DEFINITION. The nine rows of the frame table (30_encoding.md R54): each is one run of `frame(rs, b)` (44_framing.md R77) with
the byte its pattern gives (log 1). -/

namespace Sys2Proof.Machine

/-- FRAME.WAKE33 (R54). -/
def execFrameWake33 (s : State) : Result := perform .frameWake33 (framePlan s.config rsCmd wake33Byte) s

/-- FRAME.WAKE32 (R54). -/
def execFrameWake32 (s : State) : Result := perform .frameWake32 (framePlan s.config rsCmd wake32Byte) s

/-- FRAME.FUNCSET (R54). -/
def execFrameFuncset (s : State) : Result := perform .frameFuncset (framePlan s.config rsCmd funcsetByte) s

/-- FRAME.CLEAR (R54). -/
def execFrameClear (s : State) : Result := perform .frameClear (framePlan s.config rsCmd clearByte) s

/-- FRAME.DISPON (R54). -/
def execFrameDispon (s : State) : Result := perform .frameDispon (framePlan s.config rsCmd disponByte) s

/-- FRAME.ENTRY (R54). -/
def execFrameEntry (s : State) : Result := perform .frameEntry (framePlan s.config rsCmd entryByte) s

/-- FRAME.SETCGRAM (R54, R56). -/
def execFrameSetCgram (slot : BitVec 3) (s : State) : Result :=
  perform (.frameSetCgram slot) (framePlan s.config rsCmd (setCgramByte slot)) s

/-- FRAME.SETDDRAM (R54, R55). -/
def execFrameSetDdram (a : BitVec 7) (s : State) : Result :=
  perform (.frameSetDdram a) (framePlan s.config rsCmd (setDdramByte a)) s

/-- FRAME.DATA (R54, R76). -/
def execFrameData (d : Byte) (s : State) : Result := perform (.frameData d) (framePlan s.config rsData d) s

end Sys2Proof.Machine
end

