-- ==== Sys2Proof/Machine/Cursor.lean ====
section
/-! DEFINITION. The cursor family (42_cursor.md): `clearDisplay`, `gotoxy`, `clearXY`. -/

namespace Sys2Proof.Machine

/-- `clearDisplay()` (R70). -/
def clearDisplayPlan (c : Config) : Plan := writeCommandPlan c clearByte

/-- `gotoxy(x, y)` (R71): the set-DDRAM-address command of the cell, nothing for a row outside 0..3 (R60), refused when the sum
leaves 7 bits (R55). -/
def gotoxyPlan (c : Config) (x y : Byte) : Plan :=
  match cellAddress x y with
  | .noRow => .nothing
  | .fits a => writeCommandPlan c (setDdramByte a)
  | .overflow => .refusing (.ddramAddressOverflow x y)

/-- `clearXY(x, y)` (R72): the space is written whether or not the row exists. -/
def clearXYPlan (c : Config) (x y : Byte) : Plan := (gotoxyPlan c x y).followedBy (writeDataPlan c chSpace)

/-- clearDisplay (R70). -/
def execClearDisplay (s : State) : Result := perform .clearDisplay (clearDisplayPlan s.config) s

/-- gotoxy (R71). -/
def execGotoxy (x y : Byte) (s : State) : Result := perform (.gotoxy x y) (gotoxyPlan s.config x y) s

/-- clearXY (R72). -/
def execClearXY (x y : Byte) (s : State) : Result := perform (.clearXY x y) (clearXYPlan s.config x y) s

end Sys2Proof.Machine
end

