-- ==== Sys2Proof/Machine/Glyphs.lean ====
section
/-! DEFINITION. The glyph family (43_glyph.md): `writeCustomChar`, `createCustomChar`. -/

namespace Sys2Proof.Machine

/-- `writeCustomChar(x, y, slot)` (R73): all 8 bits of `slot` are sent, unmasked (D14). -/
def writeCustomCharPlan (c : Config) (x y slot : Byte) : Plan :=
  (gotoxyPlan c x y).followedBy (writeDataPlan c slot)

/-- `createCustomChar(slot, data)` (R74): the CGRAM address of the slot modulo 8 (R61), then the eight bytes in order. -/
def createCustomCharPlan (c : Config) (slot : Byte) (data : Glyph) : Plan :=
  (writeCommandPlan c (setCgramByte (slotIndex slot))).followedBy
    (.sequence ((glyphBytes data).map (writeDataPlan c)))

/-- writeCustomChar (R73). -/
def execWriteCustomChar (x y slot : Byte) (s : State) : Result :=
  perform (.writeCustomChar x y slot) (writeCustomCharPlan s.config x y slot) s

/-- createCustomChar (R74). -/
def execCreateCustomChar (slot : Byte) (data : Glyph) (s : State) : Result :=
  perform (.createCustomChar slot data) (createCustomCharPlan s.config slot data) s

end Sys2Proof.Machine
end

