-- ==== Sys2Proof/Machine/Init.lean ====
section
/-! DEFINITION. The initialisation family (40_init.md): `init`. -/

namespace Sys2Proof.Machine

/-- The order in which `init` configures the lines (R65, D5; log 16). -/
def configureOrder : List Line := [.rs, .rw, .en, .d0, .d1, .d2, .d3]

/-- `init()` (R65): configure the seven lines, put RW in write mode, send the six-byte handshake. -/
def initPlan (c : Config) : Plan :=
  .sequence
    [.emitting (configureOrder.map .cfg),
      .emitting [.wr .rw rwWrite],
      writeCommandPlan c wake33Byte,
      writeCommandPlan c wake32Byte,
      writeCommandPlan c funcsetByte,
      writeCommandPlan c clearByte,
      writeCommandPlan c disponByte,
      writeCommandPlan c entryByte]

/-- init (R65). -/
def execInit (s : State) : Result := perform .init (initPlan s.config) s

end Sys2Proof.Machine
end

