-- ==== Sys2Proof/Machine/Text.lean ====
section
/-! DEFINITION. The text family (41_text.md): `writeString`, `writeInt`. -/

namespace Sys2Proof.Machine

/-- `writeString(text)` (R68): one data frame per character, in order. -/
def writeStringPlan (c : Config) (text : List Byte) : Plan := .sequence (text.map (writeDataPlan c))

/-- `writeInt(number)` (R69): the decimal text of the number read as two's complement. -/
def writeIntPlan (c : Config) (number : BitVec 32) : Plan := writeStringPlan c (dec number.toInt)

/-- writeString (R68). -/
def execWriteString (text : List Byte) (s : State) : Result :=
  perform (.writeString text) (writeStringPlan s.config text) s

/-- writeInt (R69). -/
def execWriteInt (number : BitVec 32) (s : State) : Result :=
  perform (.writeInt number) (writeIntPlan s.config number) s

end Sys2Proof.Machine
end

