-- ==== Sys2Proof/Machine/Dispatch.lean ====
section
/-! DEFINITION. The meaning of every instruction: one arm per constructor of Instr. -/

namespace Sys2Proof.Machine

/-- What instruction `i` does in state `s`. -/
def exec (i : Instr) (s : State) : Host.Outcome State Fault Refusal :=
  match i with
  | .init => Sys2Proof.Machine.execInit s
  | .writeString text => Sys2Proof.Machine.execWriteString text s
  | .writeInt number => Sys2Proof.Machine.execWriteInt number s
  | .clearDisplay => Sys2Proof.Machine.execClearDisplay s
  | .gotoxy x y => Sys2Proof.Machine.execGotoxy x y s
  | .writeCustomChar x y slot => Sys2Proof.Machine.execWriteCustomChar x y slot s
  | .clearXY x y => Sys2Proof.Machine.execClearXY x y s
  | .createCustomChar slot data => Sys2Proof.Machine.execCreateCustomChar slot data s
  | .writeCommand byte => Sys2Proof.Machine.execWriteCommand byte s
  | .writeData byte => Sys2Proof.Machine.execWriteData byte s
  | .transferNibble nibble bitCount => Sys2Proof.Machine.execTransferNibble nibble bitCount s
  | .frameWake33 => Sys2Proof.Machine.execFrameWake33 s
  | .frameWake32 => Sys2Proof.Machine.execFrameWake32 s
  | .frameFuncset => Sys2Proof.Machine.execFrameFuncset s
  | .frameClear => Sys2Proof.Machine.execFrameClear s
  | .frameDispon => Sys2Proof.Machine.execFrameDispon s
  | .frameEntry => Sys2Proof.Machine.execFrameEntry s
  | .frameSetCgram slot => Sys2Proof.Machine.execFrameSetCgram slot s
  | .frameSetDdram a => Sys2Proof.Machine.execFrameSetDdram a s
  | .frameData d => Sys2Proof.Machine.execFrameData d s

end Sys2Proof.Machine
end

