-- ==== Sys2Proof/Machine/Sequencer.lean ====
section
/-! DEFINITION. The sequencer position (10_state.md R20): the event list of a running operation, one event per step, taking the
next word from the port (30_encoding.md R48), and the per-event form of a whole step (D25). -/

namespace Sys2Proof.Machine

/-- What the pseudocode of `i` does, "a function of `op`, its operands and the parameters only" (R20). -/
def planOf (c : Config) (i : Instr) : Plan :=
  match i with
  | .init => initPlan c
  | .writeString text => writeStringPlan c text
  | .writeInt number => writeIntPlan c number
  | .clearDisplay => clearDisplayPlan c
  | .gotoxy x y => gotoxyPlan c x y
  | .writeCustomChar x y slot => writeCustomCharPlan c x y slot
  | .clearXY x y => clearXYPlan c x y
  | .createCustomChar slot data => createCustomCharPlan c slot data
  | .writeCommand byte => writeCommandPlan c byte
  | .writeData byte => writeDataPlan c byte
  | .transferNibble nibble bitCount => transferNibblePlan c nibble bitCount
  | .frameWake33 => framePlan c rsCmd wake33Byte
  | .frameWake32 => framePlan c rsCmd wake32Byte
  | .frameFuncset => framePlan c rsCmd funcsetByte
  | .frameClear => framePlan c rsCmd clearByte
  | .frameDispon => framePlan c rsCmd disponByte
  | .frameEntry => framePlan c rsCmd entryByte
  | .frameSetCgram s => framePlan c rsCmd (setCgramByte s)
  | .frameSetDdram a => framePlan c rsCmd (setDdramByte a)
  | .frameData d => framePlan c rsData d

/-- Where the sequencer stands once `upc` events of the plan have been emitted: idle as soon as the last one has been (R20, R48:
"until the operation's last event has been emitted"), so at once where the list is empty (log 18). -/
def seqAt (i : Instr) (p : Plan) (upc : Nat) : Seq :=
  if p.steps.length ≤ upc ∧ p.stop = none then .idle else .busy i upc

/-- One step of a running operation: emit event number `upc` of its list (R20), or reach the refusal its plan ends in. -/
def sequenceStep (i : Instr) (upc : Nat) (s : State) : Result :=
  let p := planOf s.config i
  match p.steps[upc]? with
  | some m => andThen (emit m s) fun s' => .next (s'.withSeq (seqAt i p (upc + 1)))
  | none =>
    match p.stop with
    | none => .next (s.withSeq .idle)
    | some r => refuse r s

/-- Acceptance alone (R48): the operation is captured, and nothing is emitted yet. -/
def acceptStep (i : Instr) (s : State) : Result :=
  andThen (accept i s) fun s' => .next (s'.withSeq (seqAt i (planOf s.config i) 0))

/-- The word the block takes next, and the state with it taken from the port (R48). -/
def fetch (s : State) : Option (PortWord × State) :=
  match s.port with
  | [] => none
  | w :: rest => some (w, s.withPort rest)

/-- One step of the block (R20) that runs an accepted operation through `run`: a refused state stays refused (R10); a busy block
emits its next event while requests wait (R46); an idle one takes the next word, refuses a reserved code with the word left at
the port (R59; log 19), and with no word does nothing (R95). -/
def stepWith (run : Instr → State → Result) (s : State) : Result :=
  match s.refused with
  | some r => .refused (.refuse r s)
  | none =>
    match s.seq with
    | .busy i upc => sequenceStep i upc s
    | .idle =>
      match fetch s with
      | none => .next s
      | some (w, taken) =>
        match decode w with
        | .ok i => run i taken
        | .error (.reservedRequest code) => refuse (.reservedRequest code) s

/-- The per-event form of R20 and R48: one step accepts a request, and each later step emits one event. -/
def eventStep (s : State) : Result := stepWith acceptStep s

/-- `s` with a word where the next step takes its instruction, and nothing in the way of that step: the block idle and not
refused (log 15). -/
def State.withNextWord (s : State) (w : PortWord) : State :=
  { s with port := w :: s.port, seq := .idle, refused := none }

end Sys2Proof.Machine
end

