-- ==== Sys2Proof/Machine/Step.lean ====
section
/-! DEFINITION. One step of the machine (10_state.md R20 in its atomic form, D25; log 4). -/

namespace Sys2Proof.Machine

/-- One step: an idle block takes the next word from the port and runs its whole event list; a busy one emits its next event. -/
def step (s : State) : Host.Outcome State Fault Refusal := stepWith exec s

/-- `s` with the table word of `nbits` bits `w` where `step` takes its next instruction; `s` itself where the bits are no word of
a row's width (log 15). -/
def State.withFetchWord (s : State) (nbits w : Nat) : State :=
  match tableWord nbits w with
  | some word => s.withNextWord word
  | none => s

end Sys2Proof.Machine
end

