-- ==== Sys2Proof/Machine/Contexts.lean ====
section
/-! DEFINITION. What calling contexts do between two steps of the block (20_memory.md R45, R46; 70_reset_and_hazards.md R102;
93_implementation_defined.md U12; log 27). Inside an operation these steps are those of `eventStep`. -/

namespace Sys2Proof.Machine

/-- What a context can do. A word that waits at the port cannot be altered or withdrawn before it is accepted: R46 and R48 do not
say, and that it stays as it was presented is the model's own (log 30, DESIGN CHOICE). -/
inductive ContextAction where
  /-- Present a word at the port, where it waits its turn: "the serialisation the caller owes" (R46). -/
  | present (w : PortWord)
  /-- Start an operation at once, without waiting at the port. On an idle block it runs ahead of the words that already wait there:
  R46 and R86 give no order for two requests that contend for an idle block, and this one is the model's own (log 31, DESIGN
  CHOICE). -/
  | start (i : Instr)
  /-- Change the memory that the operand of the operation last accepted came from. -/
  | changeBuffer
deriving DecidableEq, Repr

/-- The operation takes an operand from memory that the caller owns: "the `text` sequence and the 8 glyph bytes" (R45). -/
def takesBuffer (i : Instr) : Bool :=
  match i with
  | .writeString _ | .createCustomChar _ _ => true
  | .init | .writeInt _ | .clearDisplay | .gotoxy _ _ | .writeCustomChar _ _ _ | .clearXY _ _ | .writeCommand _ | .writeData _
  | .transferNibble _ _ => false
  | .frameWake33 | .frameWake32 | .frameFuncset | .frameClear | .frameDispon | .frameEntry | .frameSetCgram _
  | .frameSetDdram _ | .frameData _ => false

/-- "change a buffer handed to a running" operation: a violation of the serialisation, refused as `OverlappingRequest` (R102,
U12). Where no operation that took a buffer is running, nothing happens to the block, which captured its operands (R45). -/
def changeBuffer (s : State) : Result :=
  match s.refused with
  | some r => .refused (.refuse r s)
  | none =>
    match s.seq with
    | .idle => .next s
    | .busy i _ => if takesBuffer i then refuse .overlappingRequest s else .next s

/-- The effect of a context's action on the block. Presenting a word never fails, and no action alters or withdraws one that
waits (log 30); starting an operation while another runs overlaps it (R46, R89), and on an idle block it is accepted ahead of the
words that wait (log 31, DESIGN CHOICE). -/
def contextStep (a : ContextAction) (s : State) : Result :=
  match a with
  | .present w => .next (s.present w)
  | .start i => acceptStep i s
  | .changeBuffer => changeBuffer s

/-- One turn: the block takes a step, or a context acts. -/
inductive Turn where
  | block
  | context (a : ContextAction)
deriving DecidableEq, Repr

/-- Turns one after another, the block emitting one event at a step, up to the first stop. -/
def takeTurns : List Turn → State → Result
  | [], s => .next s
  | .block :: ts, s => andThen (eventStep s) (takeTurns ts)
  | .context a :: ts, s => andThen (contextStep a s) (takeTurns ts)

end Sys2Proof.Machine
end

