-- ==== Sys2Proof/Machine/Gpio.lean ====
section
/-! DEFINITION. The platform capability the block consumes (60_exceptions.md R92) and the premises on the platform
(10_state.md R22, R23; 70_reset_and_hazards.md R96). -/

namespace Sys2Proof.Machine

/-- The four procedures of the GpioBackend (R92). -/
inductive GpioCall where
  /-- "configure a named pin as push-pull digital output, no pull resistor, high slew rate. Idempotent." -/
  | configureOutputPin (p : Pin)
  /-- "sets pin state immediately." -/
  | writePin (p : Pin) (v : Level)
  /-- "blocking delay of at least n milliseconds." -/
  | delayMilliseconds (n : Nat)
  /-- "one-time enablement of the peripheral clock for each GPIO bank used"; never called by the block (D6). -/
  | enableClockDomain (bank : Nat)
deriving DecidableEq, Repr

/-- The call an event is, `(port, pin) = PIN_BINDING(l)` (R8, R92). -/
def gpioCall (p : Platform) (e : Event) : GpioCall :=
  match e with
  | .cfg l => .configureOutputPin (lineGet p.binding l)
  | .wr l v => .writePin (lineGet p.binding l) v
  | .dly n => .delayMilliseconds n

/-- Every call the block has made, in order. -/
def gpioCalls (p : Platform) (s : State) : List GpioCall := s.trace.map (gpioCall p)

/-- The seven bound pins. -/
def boundPins (p : Platform) : List Pin :=
  [p.binding.rs, p.binding.rw, p.binding.en, p.binding.d0, p.binding.d1, p.binding.d2, p.binding.d3]

/-- "`D[i]` is wired to the controller's data pin D(4+i)" (R22): the invariant of the PinBinding, a premise on the platform that no
operation can see (93_implementation_defined.md U11). -/
def wiringMatches (p : Platform) : Bool :=
  decide (p.wiring = ⟨p.binding.d0, p.binding.d1, p.binding.d2, p.binding.d3⟩)

/-- The legal values of the two bindings (R22, R23): "all seven bindings ... are distinct pins and `D[i]` is wired to the
controller's data pin D(4+i)". -/
def bindingLegal (p : Platform) : Bool := decide (boundPins p).Nodup && wiringMatches p

/-- The seven lines. -/
def allLines : List Line := [.rs, .rw, .en, .d0, .d1, .d2, .d3]

/-- The value on a pin: that of the line bound to it, and none where no line is (log 28). It is read as under the launch premise
`clocksEnabled`: without the clock of the pin's bank the `cfg` and `drive` calls "have no defined effect on the pins" (R96), and
giving the line's value there too is the model's own (log 29, DESIGN CHOICE). -/
def pinValue (p : Platform) (b : Lines LineVal) (q : Pin) : LineVal :=
  match allLines.find? fun l => decide (lineGet p.binding l = q) with
  | some l => lineGet b l
  | none => .x

/-- What the controller receives on its data pins while the lines stand at `b`: where the wiring does not match the index order,
"what the controller receives is permuted" (U11). What it receives from a bank whose clock is off is `pinValue`'s choice (log 29). -/
def received (p : Platform) (b : Lines LineVal) : DataPins LineVal where
  d4 := pinValue p b p.wiring.d4
  d5 := pinValue p b p.wiring.d5
  d6 := pinValue p b p.wiring.d6
  d7 := pinValue p b p.wiring.d7

/-- `NBANKS`, the number of GPIO banks the binding uses (R5). -/
def nbanks (p : Platform) : Nat := ((boundPins p).map Pin.port).dedup.length

/-- The launch premise "clock domains enabled" (R96): the clock of every bank the binding uses is on. -/
def clocksEnabled (p : Platform) : Bool := (boundPins p).all fun q => p.clocks.contains q.port

/-- The number `COLS`. -/
def columnCount (p : Platform) : Nat :=
  match p.cols with
  | .c16 => 16
  | .c20 => 20

/-- The number `ROWS`. -/
def rowCount (p : Platform) : Nat :=
  match p.rows with
  | .r2 => 2
  | .r4 => 4

end Sys2Proof.Machine
end

