-- ==== Sys2Proof/Machine/Runs.lean ====
section
/-! DEFINITION. Programs (30_encoding.md R64, 70_reset_and_hazards.md R106): requests issued in order, each after the previous one
is done; and which operations do what the hazards of 70_reset_and_hazards.md speak of. -/

namespace Sys2Proof.Machine

/-- Run the operations one after another (R64, R106). -/
def runAll : List Instr → State → Result
  | [], s => .next s
  | i :: is, s => andThen (exec i s) (runAll is)

/-- `n` steps of the machine, stopping at the first stop. -/
def steps : Nat → State → Result
  | 0, s => .next s
  | n + 1, s => andThen (step s) (steps n)

/-- `n` steps of `eventStep`, stopping at the first stop. -/
def eventSteps : Nat → State → Result
  | 0, s => .next s
  | n + 1, s => andThen (eventStep s) (eventSteps n)

/-- The operations of the public surface (R2, R49). -/
def isPublic (i : Instr) : Bool :=
  match i with
  | .init | .writeString _ | .writeInt _ | .clearDisplay | .gotoxy _ _ | .writeCustomChar _ _ _ | .clearXY _ _
  | .createCustomChar _ _ => true
  | .writeCommand _ | .writeData _ | .transferNibble _ _ => false
  | .frameWake33 | .frameWake32 | .frameFuncset | .frameClear | .frameDispon | .frameEntry | .frameSetCgram _
  | .frameSetDdram _ | .frameData _ => false

/-- The operation emits whole frames only, so it keeps the nibble pairing (R36, R104): all but `transferNibble`. -/
def keepsPairing (i : Instr) : Bool :=
  match i with
  | .transferNibble _ _ => false
  | .init | .writeString _ | .writeInt _ | .clearDisplay | .gotoxy _ _ | .writeCustomChar _ _ _ | .clearXY _ _
  | .createCustomChar _ _ | .writeCommand _ | .writeData _ => true
  | .frameWake33 | .frameWake32 | .frameFuncset | .frameClear | .frameDispon | .frameEntry | .frameSetCgram _
  | .frameSetDdram _ | .frameData _ => true

/-- The operation emits text data frames without addressing first (R99): `writeString`, `writeInt`, `writeData`, and `clearXY` and
`writeCustomChar` on a row outside 0..3; a frame row of data is `writeData` one layer down. The empty text emits none (log 21). -/
def textWithoutAddress (i : Instr) : Bool :=
  match i with
  | .writeString text => !text.isEmpty
  | .writeInt _ => true
  | .writeData _ => true
  | .frameData _ => true
  | .clearXY _ y => (rowBase y).isNone
  | .writeCustomChar _ y _ => (rowBase y).isNone
  | .init | .clearDisplay | .gotoxy _ _ | .createCustomChar _ _ | .writeCommand _ | .transferNibble _ _ => false
  | .frameWake33 | .frameWake32 | .frameFuncset | .frameClear | .frameDispon | .frameEntry | .frameSetCgram _
  | .frameSetDdram _ => false

/-- The column the operation addresses lies on the display (R100). -/
def columnOk (p : Platform) (i : Instr) : Bool :=
  match i with
  | .gotoxy x _ => decide (x.toNat < columnCount p)
  | .clearXY x _ => decide (x.toNat < columnCount p)
  | .writeCustomChar x _ _ => decide (x.toNat < columnCount p)
  | .init | .writeString _ | .writeInt _ | .clearDisplay | .createCustomChar _ _ | .writeCommand _ | .writeData _
  | .transferNibble _ _ => true
  | .frameWake33 | .frameWake32 | .frameFuncset | .frameClear | .frameDispon | .frameEntry | .frameSetCgram _
  | .frameSetDdram _ | .frameData _ => true

/-- `NoTextWhileCgram` over a run from `s` (R99): no operation that emits text without addressing runs unless the last addressing
command selected DDRAM. It is an obligation on software; nothing is refused for it. -/
def noTextWhileCgram : List Instr → State → Bool
  | [], _ => true
  | i :: is, s =>
    (!textWithoutAddress i || decide (s.aptr = .ddram)) &&
      match exec i s with
      | .next t => noTextWhileCgram is t
      | .fault _ => true
      | .refused _ => true

end Sys2Proof.Machine
end

