-- ==== Sys2Proof/Machine/Views.lean ====
section
/-! DEFINITION. What an observer reads off the trace (10_state.md R25): the level of each line at a point (20_memory.md R41), the
latched samples (R42), the reassembled frames (R43), the lower bound of the time that has passed (R105). The block reads none of
these. -/

namespace Sys2Proof.Machine

/-- No line has been driven. -/
def undriven : Lines LineVal := ⟨.x, .x, .x, .x, .x, .x, .x⟩

/-- The line levels after one more event: a `WR` sets its line, nothing else changes one (R41). -/
def follow (b : Lines LineVal) (e : Event) : Lines LineVal :=
  match e with
  | .cfg _ => b
  | .wr l v => lineSet b l v.val
  | .dly _ => b

/-- "the level of the last `WR` on that line before that point, or `X` if none" (R41 c), for every line. -/
def levelsAfter (tr : List Event) : Lines LineVal := tr.foldl follow undriven

/-- What the controller sees at a falling edge of EN (R42). -/
structure Sample where
  rs : LineVal
  rw : LineVal
  d3 : LineVal
  d2 : LineVal
  d1 : LineVal
  d0 : LineVal
deriving DecidableEq, Repr

/-- The sample of the levels just before an edge. -/
def sampleOf (b : Lines LineVal) : Sample := ⟨b.rs, b.rw, b.d3, b.d2, b.d1, b.d0⟩

/-- An EN falling edge: "an event `WR(EN, LOW)` issued while `line[EN] = HIGH`" (R42). -/
def isFallingEdge (b : Lines LineVal) (e : Event) : Bool := decide (e = .wr .en .low ∧ b.en = .high)

/-- The samples latched by these events, the lines standing at `b` before them. -/
def latchedFrom (b : Lines LineVal) : List Event → List Sample
  | [] => []
  | e :: es =>
    if isFallingEdge b e then sampleOf b :: latchedFrom (follow b e) es else latchedFrom (follow b e) es

/-- `latched(trace)` (R42). -/
def latched (tr : List Event) : List Sample := latchedFrom undriven tr

/-- A line value as a bit, `HIGH = 1`, `LOW = 0` (R42); `X` is no bit (R14; log 14). -/
def LineVal.bit (v : LineVal) : Option Bool :=
  match v with
  | .x => none
  | .low => some false
  | .high => some true

/-- A line value as a level; `X` is none. -/
def LineVal.level (v : LineVal) : Option Level :=
  match v with
  | .x => none
  | .low => some .low
  | .high => some .high

/-- The 4-bit value of a sample, `D[3] ++ D[2] ++ D[1] ++ D[0]` (R42). -/
def Sample.nibble (p : Sample) : Option (BitVec 4) :=
  match LineVal.bit p.d3, LineVal.bit p.d2, LineVal.bit p.d1, LineVal.bit p.d0 with
  | some b3, some b2, some b1, some b0 =>
    some (BitVec.ofBool b3 ++ BitVec.ofBool b2 ++ BitVec.ofBool b1 ++ BitVec.ofBool b0)
  | _, _, _, _ => none

/-- The frame of two samples, the high nibble first (R43); defined when both have the same RS level and `RW = LOW`. -/
def joinPair (hi lo : Sample) : Option Frame :=
  match LineVal.level hi.rs, hi.nibble, lo.nibble with
  | some rs, some h, some l =>
    if hi.rs = lo.rs ∧ hi.rw = .low ∧ lo.rw = .low then some ⟨rs, h ++ l⟩ else none
  | _, _, _ => none

/-- Samples paired from the start (R43); an odd number has no pairing (U23). -/
def pairSamples : List Sample → Option (List Frame)
  | [] => some []
  | [_] => none
  | hi :: lo :: rest =>
    match joinPair hi lo, pairSamples rest with
    | some f, some fs => some (f :: fs)
    | _, _ => none

/-- `frames(trace)` (R43), where it is defined (log 14). -/
def frames (tr : List Event) : Option (List Frame) := pairSamples (latched tr)

/-- The 9-bit word of a frame (R51). -/
def Frame.word (f : Frame) : BitVec 9 := BitVec.ofBool (decide (f.rs = rsData)) ++ f.byte

/-- The milliseconds that must at least have passed: the sum of the `DLY` events (R91, R105). No rule depends on it (log 23). -/
def delayTotal : List Event → Nat
  | [] => 0
  | .cfg _ :: es => delayTotal es
  | .wr _ _ :: es => delayTotal es
  | .dly n :: es => n + delayTotal es

end Sys2Proof.Machine
end

