-- ==== Sys2Proof/Safety.lean ====
section
/-! DEFINITION. What counts as a good state and a good run, in the terms the statements use (70_reset_and_hazards.md R106,
60_exceptions.md R84). -/

namespace Sys2Proof.Safety

open Sys2Proof.Machine

/-- The block can take an operation: idle and not refused (R46, R48, R84). -/
def Ready (s : State) : Prop := s.seq = .idle ∧ s.refused = none

/-- The run is over (R106): the last request's last event has been emitted and the block is idle. -/
def Over (s : State) : Prop := s.port = [] ∧ s.seq = .idle

/-- The run is final, that is good (R106): over, and nothing was refused. -/
def Final (s : State) : Prop := Over s ∧ s.refused = none

/-- Every line has been configured (R15). -/
def AllConfigured (s : State) : Prop := ∀ l, lineGet s.configured l = true

/-- The lines a frame drives have been configured (R15, R77): all but RW. -/
def FrameLinesConfigured (s : State) : Prop := ∀ l, l ≠ .rw → lineGet s.configured l = true

/-- The latches hold what the trace says they were last driven to (R41 c). -/
def LinesFollowTrace (s : State) : Prop := s.line = levelsAfter s.trace

/-- A line is configured exactly when `cfg` has been issued on it (R15). -/
def ConfiguredFollowsTrace (s : State) : Prop := ∀ l, lineGet s.configured l = true ↔ .cfg l ∈ s.trace

/-- No line was driven before it was configured (R15, D8). -/
def DrivenLinesConfigured (s : State) : Prop := ∀ l v, .wr l v ∈ s.trace → lineGet s.configured l = true

/-- RW is undriven or low, never high: "held permanently in write mode" (R13, R16). -/
def WriteModeHeld (s : State) : Prop := s.line.rw ≠ .high

/-- The invariant of the record: the trace accounts for the latches and for the configured marks, and RW was never raised. -/
def RecordInv (s : State) : Prop :=
  LinesFollowTrace s ∧ ConfiguredFollowsTrace s ∧ DrivenLinesConfigured s ∧ WriteModeHeld s

/-- No component of the sample is X, and RW is LOW in it (R42). -/
def SampleDefined (p : Sample) : Prop := p.rs ≠ .x ∧ p.rw = .low ∧ p.d3 ≠ .x ∧ p.d2 ≠ .x ∧ p.d1 ≠ .x ∧ p.d0 ≠ .x

/-- The controller has been shown levels only: the record accounts for the lines, every line that is sampled holds a level, RW is
LOW, and so it was at every falling edge of EN (R42, R16). -/
def SamplingInv (s : State) : Prop :=
  RecordInv s ∧ SampleDefined (sampleOf s.line) ∧ ∀ p ∈ latched s.trace, SampleDefined p

end Sys2Proof.Safety
end

