-- ==== Sys2Proof/Certificates/Slice0/Obligations.lean ====
section
/-! DEFINITION. The statements for the provers. The functions of the first part say, without the model's own operations, what the
spec's rules say of a frame, a nibble transfer and the ghost; the statements compare the model with them. Where a statement rests
on a decision of the spec or on a choice of the model, its docstring names the entry. -/

namespace Sys2Proof.Claims

open Sys2Proof.Machine

/-- HIGH for a 1 bit, LOW for a 0 bit (R53, `lv` of R77). -/
def bitLevel : Bool → Level
  | true => .high
  | false => .low

/-- The value a line holds once a bit was driven on it. -/
def bitVal : Bool → LineVal
  | true => .high
  | false => .low

/-- The seven events of `transferNibble(n, 4)` with the delay `T`, as R78 lists them. -/
def nibbleEvents (T : Nat) (n : Byte) : List Event :=
  [.wr .d0 (bitLevel (n.getLsbD 0)), .wr .d1 (bitLevel (n.getLsbD 1)), .wr .d2 (bitLevel (n.getLsbD 2)),
    .wr .d3 (bitLevel (n.getLsbD 3)), .wr .en .high, .dly T, .wr .en .low]

/-- The fifteen events of `frame(rs, b)`, as the table of R77 lists them. -/
def frameEvents (T : Nat) (f : Frame) : List Event :=
  [.wr .rs f.rs,
    .wr .d0 (bitLevel (f.byte.getLsbD 4)), .wr .d1 (bitLevel (f.byte.getLsbD 5)),
    .wr .d2 (bitLevel (f.byte.getLsbD 6)), .wr .d3 (bitLevel (f.byte.getLsbD 7)),
    .wr .en .high, .dly T, .wr .en .low,
    .wr .d0 (bitLevel (f.byte.getLsbD 0)), .wr .d1 (bitLevel (f.byte.getLsbD 1)),
    .wr .d2 (bitLevel (f.byte.getLsbD 2)), .wr .d3 (bitLevel (f.byte.getLsbD 3)),
    .wr .en .high, .dly T, .wr .en .low]

/-- The lines after a frame (R77): RS at its level, EN low, `D[i]` at `b[i]`, RW as it was. -/
def linesAfter (L : Lines LineVal) (f : Frame) : Lines LineVal where
  rs := f.rs.val
  rw := L.rw
  en := .low
  d0 := bitVal (f.byte.getLsbD 0)
  d1 := bitVal (f.byte.getLsbD 1)
  d2 := bitVal (f.byte.getLsbD 2)
  d3 := bitVal (f.byte.getLsbD 3)

/-- The ghost after a frame, row by row of the table of R26: only a command frame moves it. -/
def ghostAfter (f : Frame) (a : Aptr) : Aptr :=
  if f.rs = rsCmd then
    if f.byte.toNat = 0x01 then .ddram
    else if 0x80 ≤ f.byte.toNat then .ddram
    else if 0x40 ≤ f.byte.toNat then .cgram
    else a
  else a

/-- The state once these frames have been sent from `s`, and nothing else has changed. -/
def sent (s : State) : List Frame → State
  | [] => s
  | f :: fs =>
    sent { s with
      line := linesAfter s.line f
      trace := s.trace ++ frameEvents s.config.tEnMs f
      aptr := ghostAfter f s.aptr } fs

/-- A command frame: RS is LOW (D4; log 9). -/
def cmd (b : Byte) : Frame := ⟨.low, b⟩

/-- A data frame: RS is HIGH (D4; log 9). -/
def dat (b : Byte) : Frame := ⟨.high, b⟩

/-- `ROW_BASE[y]` for the rows 0 to 3 (R31). -/
def base (y : Byte) : Nat := [0x00, 0x40, 0x14, 0x54].getD y.toNat 0

/-- The set-DDRAM-address byte of cell (x, y), as a sum (R55, C1). -/
def cellByte (x y : Byte) : Byte := BitVec.ofNat 8 (0x80 + base y + x.toNat)

/-- The addressing frame of a cell: none for a row outside 0..3 (R60). -/
def addressing (x y : Byte) : List Frame := if y.toNat ≤ 3 then [cmd (cellByte x y)] else []

/-- The eight bytes of a glyph in order. -/
def pixelRows (g : Glyph) : List Byte := [g.row0, g.row1, g.row2, g.row3, g.row4, g.row5, g.row6, g.row7]

/-- The six frames of `init` (R65). -/
def handshake : List Frame := [cmd 0x33#8, cmd 0x32#8, cmd 0x28#8, cmd 0x01#8, cmd 0x0C#8, cmd 0x06#8]

/-- The frames each operation sends, in order (R64, R65, R68 to R76; R54 for the frame rows); a lone nibble transfer sends
none. -/
def framesSent : Instr → List Frame
  | .init => handshake
  | .writeString text => text.map dat
  | .writeInt number => (dec number.toInt).map dat
  | .clearDisplay => [cmd 0x01#8]
  | .gotoxy x y => addressing x y
  | .writeCustomChar x y slot => addressing x y ++ [dat slot]
  | .clearXY x y => addressing x y ++ [dat 0x20#8]
  | .createCustomChar slot data => cmd (0x40#8 ||| ((slot &&& 0x07#8) <<< 3)) :: (pixelRows data).map dat
  | .writeCommand byte => [cmd byte]
  | .writeData byte => [dat byte]
  | .transferNibble _ _ => []
  | .frameWake33 => [cmd 0x33#8]
  | .frameWake32 => [cmd 0x32#8]
  | .frameFuncset => [cmd 0x28#8]
  | .frameClear => [cmd 0x01#8]
  | .frameDispon => [cmd 0x0C#8]
  | .frameEntry => [cmd 0x06#8]
  | .frameSetCgram s => [cmd (BitVec.ofNat 8 (0x40 + 8 * s.toNat))]
  | .frameSetDdram a => [cmd (BitVec.ofNat 8 (0x80 + a.toNat))]
  | .frameData d => [dat d]

/-- The number of nibble transfers of each operation (the column `N` of R105). -/
def transfers : Instr → Nat
  | .init => 12
  | .writeString text => 2 * text.length
  | .writeInt number => 2 * (dec number.toInt).length
  | .clearDisplay => 2
  | .gotoxy _ y => if y.toNat ≤ 3 then 2 else 0
  | .writeCustomChar _ y _ => if y.toNat ≤ 3 then 4 else 2
  | .clearXY _ y => if y.toNat ≤ 3 then 4 else 2
  | .createCustomChar _ _ => 18
  | .writeCommand _ => 2
  | .writeData _ => 2
  | .transferNibble _ _ => 1
  | .frameWake33 => 2
  | .frameWake32 => 2
  | .frameFuncset => 2
  | .frameClear => 2
  | .frameDispon => 2
  | .frameEntry => 2
  | .frameSetCgram _ => 2
  | .frameSetDdram _ => 2
  | .frameData _ => 2

/-- The three events of `strobe()`, as R79 lists them. -/
def strobeEvents (T : Nat) : List Event := [.wr .en .high, .dly T, .wr .en .low]

/-- The events of an operation with well-formed operands, in order: `init` as R65 lists them (D5), a lone nibble transfer as R78
does, any other operation those of its frames. -/
def operationEvents (T : Nat) : Instr → List Event
  | .init =>
    [.cfg .rs, .cfg .rw, .cfg .en, .cfg .d0, .cfg .d1, .cfg .d2, .cfg .d3, .wr .rw .low] ++ handshake.flatMap (frameEvents T)
  | .transferNibble n c => (nibbleEvents T n).take c.toNat ++ strobeEvents T
  | i => (framesSent i).flatMap (frameEvents T)

/-- The calls of the platform that one frame makes (R77, R92): the pins are those the lines are bound to. -/
def frameCalls (p : Platform) (T : Nat) (f : Frame) : List GpioCall :=
  [.writePin p.binding.rs f.rs,
    .writePin p.binding.d0 (bitLevel (f.byte.getLsbD 4)), .writePin p.binding.d1 (bitLevel (f.byte.getLsbD 5)),
    .writePin p.binding.d2 (bitLevel (f.byte.getLsbD 6)), .writePin p.binding.d3 (bitLevel (f.byte.getLsbD 7)),
    .writePin p.binding.en .high, .delayMilliseconds T, .writePin p.binding.en .low,
    .writePin p.binding.d0 (bitLevel (f.byte.getLsbD 0)), .writePin p.binding.d1 (bitLevel (f.byte.getLsbD 1)),
    .writePin p.binding.d2 (bitLevel (f.byte.getLsbD 2)), .writePin p.binding.d3 (bitLevel (f.byte.getLsbD 3)),
    .writePin p.binding.en .high, .delayMilliseconds T, .writePin p.binding.en .low]

/-- The calls of the platform that a lone nibble transfer makes (R78, R79, R92). -/
def nibbleCalls (p : Platform) (T : Nat) (n : Byte) (count : Nat) : List GpioCall :=
  [.writePin p.binding.d0 (bitLevel (n.getLsbD 0)), .writePin p.binding.d1 (bitLevel (n.getLsbD 1)),
      .writePin p.binding.d2 (bitLevel (n.getLsbD 2)), .writePin p.binding.d3 (bitLevel (n.getLsbD 3))].take count ++
    [.writePin p.binding.en .high, .delayMilliseconds T, .writePin p.binding.en .low]

/-- The number a decimal text stands for, read digit by digit from the left. -/
def readDigits (acc : Nat) : List Byte → Nat
  | [] => acc
  | c :: cs => readDigits (10 * acc + (c.toNat - 0x30)) cs

/-- The integer a decimal text with an optional minus sign stands for. -/
def readDecimal : List Byte → Int
  | [] => 0
  | c :: cs => if c = 0x2D#8 then -(readDigits 0 cs : Int) else (readDigits 0 (c :: cs) : Int)

/-- Every character is a decimal digit. -/
def AllDigits (cs : List Byte) : Prop := ∀ c ∈ cs, 0x30 ≤ c.toNat ∧ c.toNat ≤ 0x39

end Sys2Proof.Claims

open Sys2Proof Sys2Proof.Machine Sys2Proof.Safety Sys2Proof.Claims

/-! ## Encoding -/

/-- Decoding the word of an instruction gives the instruction back, with every operand at every value (R49, R50, R54). -/
def Obligations.DecodeOfEncodeIsIdentity : Prop := ∀ i : Instr, decode (encode i) = .ok i

/-- Every FRAME9 word decodes, and the instruction it gives sends exactly the frame of its bits: bit 8 is RS (HIGH for data, D4),
bits 7 to 0 the byte (R51). That frame words are run at all is the model's choice (logs 1 and 2). -/
def Obligations.EveryFrameWordSendsItsOwnFrame : Prop :=
  ∀ (w : BitVec 9) (s : State), Ready s → FrameLinesConfigured s →
    ∃ i, decode (.frame9 w) = .ok i ∧ exec i s = .next (sent s [⟨bitLevel (w.getLsbD 8), w.extractLsb' 0 8⟩])

/-- The request codes 0 to 10 select the operations in the order of R49, each with the operand ports R50 names for it, and with
no other port (R48). The numbers are the spec's own (D9). -/
def Obligations.RequestCodesSelectTheirOperation : Prop :=
  ∀ r : Request,
    (r.op = 0#4 → decode (.req r) = .ok .init) ∧
    (r.op = 1#4 → decode (.req r) = .ok (.writeString r.text)) ∧
    (r.op = 2#4 → decode (.req r) = .ok (.writeInt r.number)) ∧
    (r.op = 3#4 → decode (.req r) = .ok .clearDisplay) ∧
    (r.op = 4#4 → decode (.req r) = .ok (.gotoxy r.x r.y)) ∧
    (r.op = 5#4 → decode (.req r) = .ok (.writeCustomChar r.x r.y r.slot)) ∧
    (r.op = 6#4 → decode (.req r) = .ok (.clearXY r.x r.y)) ∧
    (r.op = 7#4 → decode (.req r) = .ok (.createCustomChar r.slot r.data)) ∧
    (r.op = 8#4 → decode (.req r) = .ok (.writeCommand r.byte)) ∧
    (r.op = 9#4 → decode (.req r) = .ok (.writeData r.byte)) ∧
    (r.op = 10#4 → decode (.req r) = .ok (.transferNibble r.nibble r.bitCount))

/-- No word fits two rows of the frame table ("The patterns do not overlap", R54). -/
def Obligations.FrameRowsDoNotOverlap : Prop :=
  ∀ (w : BitVec 9) (j k : Fin 9), frameRows[j].fits w = true → frameRows[k].fits w = true → j = k

/-- A few words written out bit by bit from R49 and R54 decode to what they stand for. The model's own choices in it: the layer is
told by the number of bits and a bare request code has zero operands (log 15, DESIGN CHOICE), and a frame word is an instruction
(log 1, DESIGN CHOICE). -/
def Obligations.TableWordsDecodeToTheirRow : Prop :=
  decodeTableWord 8 0b0000 = some .init ∧
  decodeTableWord 8 0b0100 = some (.gotoxy 0#8 0#8) ∧
  decodeTableWord 8 0b1010 = some (.transferNibble 0#8 0#3) ∧
  decodeTableWord 8 0b1011 = none ∧
  decodeTableWord 16 0b000110011 = some .frameWake33 ∧
  decodeTableWord 16 0b001101000 = some (.frameSetCgram 5#3) ∧
  decodeTableWord 16 0b011010001 = some (.frameSetDdram 0x51#7) ∧
  decodeTableWord 16 0b110100101 = some (.frameData 0xA5#8)

/-! ## The port and the step -/

/-- A request with a code of 11 to 15 selects no operation: nothing is emitted and the run is refused (R59, D23). That the word
stays at the port is the model's choice (log 19). -/
def Obligations.ReservedCodesAreRefused : Prop :=
  ∀ (s : State) (r : Request) (rest : List PortWord), Ready s → s.port = .req r :: rest → 11 ≤ r.op.toNat →
    step s = .refused (.refuse (.reservedRequest r.op) { s with refused := some (.reservedRequest r.op) })

/-- An idle block takes the word at the head of the port from it and runs the instruction it decodes to, as one atomic step (R20,
R48, D25; log 4). -/
def Obligations.StepRunsTheDecodedInstruction : Prop :=
  ∀ (s : State) (w : PortWord) (rest : List PortWord) (i : Instr),
    Ready s → s.port = w :: rest → decode w = .ok i → step s = exec i { s with port := rest }

/-- An idle block with no request does nothing: it "waits for a request" (R95, D19; log 3). -/
def Obligations.IdleBlockWithoutRequestWaits : Prop :=
  ∀ s : State, Ready s → s.port = [] → step s = .next s

/-- While an operation runs, a step emits at most one event, moves the position by one or ends the operation, and leaves the
requests waiting at the port (R20, R46, D18, D25). -/
def Obligations.RequestsWaitWhileBusy : Prop :=
  ∀ (s t : State) (i : Instr) (k : Nat), s.seq = .busy i k → step s = .next t →
    t.port = s.port ∧ (t.seq = .idle ∨ t.seq = .busy i (k + 1)) ∧ (t.trace = s.trace ∨ ∃ e, t.trace = s.trace ++ [e])

/-- Running an operation while another runs is refused, with the state as it is but for the mark (R46, R89, D18). -/
def Obligations.OverlappingOperationIsRefused : Prop :=
  ∀ (s : State) (i j : Instr) (k : Nat), s.refused = none → s.seq = .busy j k →
    exec i s = .refused (.refuse .overlappingRequest { s with refused := some .overlappingRequest })

/-- A refused state stays refused: "the refusal mark is kept for the rest of the run" (R10). That every step and every operation
answers the first reason again, with the state unchanged, is the model's reading (log 7, DEDUCED). -/
def Obligations.RefusedStateStaysRefused : Prop :=
  ∀ (s : State) (r : Reason), s.refused = some r →
    step s = .refused (.refuse r s) ∧ eventStep s = .refused (.refuse r s) ∧ ∀ i, exec i s = .refused (.refuse r s)

/-- The two forms of R20 are equivalent (D25): where the atomic step completes, accepting the request and then emitting one event
a step, as many as the operation has, gives the same state; where it is refused, the per-event form comes to the same
refusal. -/
def Obligations.AtomicStepEqualsEventSteps : Prop :=
  ∀ (s : State) (w : PortWord) (rest : List PortWord) (i : Instr), Ready s → s.port = w :: rest → decode w = .ok i →
    (∀ t, step s = .next t → eventSteps (t.trace.length - s.trace.length + 1) s = .next t) ∧
    (∀ e, step s = .refused e → ∃ n, eventSteps n s = .refused e)

/-- A running operation ends: within its remaining events and one step the block is idle again or has refused; "There is no
infinite run" (R106). -/
def Obligations.EveryRunningOperationEnds : Prop :=
  ∀ (s : State) (i : Instr) (k : Nat), s.seq = .busy i k →
    ∃ n, n ≤ (planOf s.config i).events.length - k + 1 ∧
      ((∃ t, steps n s = .next t ∧ t.seq = .idle) ∨ ∃ e, steps n s = .refused e)

/-- Requests issued in order, each after the one before is done (R64, R106): from a ready block, as many steps as there are words
give what the operations give one after another. That several words wait at the port at once, oldest first (log 3), and stay as
they were presented (log 30), are the model's choices (DESIGN CHOICE); that each takes one step is the atomic form of R20 (log 4,
DEDUCED). -/
def Obligations.WaitingRequestsRunInOrder : Prop :=
  ∀ (is : List Instr) (rest : List PortWord) (s t : State), Ready s → runAll is { s with port := rest } = .next t →
    steps is.length { s with port := is.map encode ++ rest } = .next t

/-! ## Reset and invariants -/

/-- The state after reset: every line X and unconfigured, idle, nothing emitted, the ghost unknown, no refusal (the table of R29,
D19), the delay at its default (R5, D1); nothing at the port is the model's choice (log 3). -/
def Obligations.ResetIsAsTheTableSays : Prop :=
  (∀ l, lineGet State.reset.line l = .x) ∧ (∀ l, lineGet State.reset.configured l = false) ∧
  State.reset.seq = .idle ∧ State.reset.trace = [] ∧ State.reset.aptr = .unknown ∧ State.reset.refused = none ∧
  State.reset.config.tEnMs = 1 ∧ State.reset.port = []

/-- The state after reset meets the invariant. -/
def Obligations.ResetMeetsRecordInv : Prop := RecordInv State.reset

/-- Every step keeps the invariant: the latches hold what the trace says they were last driven to (R41 c), exactly the lines of a
`CFG` are configured and no other was driven (R15, D8), and RW was never raised (R13, R16). -/
def Obligations.StepKeepsRecordInv : Prop := ∀ s t : State, RecordInv s → step s = .next t → RecordInv t

/-- No event is dropped or taken back: a step only appends to the trace, and a refusal leaves all that was emitted before it (R25,
R41, R87, D21); the state it leaves bears the mark of its reason (R89). -/
def Obligations.TraceOnlyGrows : Prop :=
  ∀ s : State,
    (∀ t, step s = .next t → s.trace <+: t.trace) ∧
    (∀ r u, step s = .refused (.refuse r u) → s.trace <+: u.trace ∧ u.refused = some r)

/-- No operation writes the configuration (R24), and an operation that completes leaves the block idle and not refused (R20, R10).
That it leaves the port as it was speaks of the model's own field (log 3, DESIGN CHOICE). -/
def Obligations.OperationsLeaveConfigurationAndPort : Prop :=
  ∀ (i : Instr) (s t : State), exec i s = .next t → t.config = s.config ∧ t.port = s.port ∧ Ready t

/-- Nothing the block emits depends on the ghost (R26, D20): from two states that differ only in it, an operation completes in
both or in none, and the results differ only in it. -/
def Obligations.GhostInfluencesNothing : Prop :=
  ∀ (i : Instr) (s t : State) (a : Aptr), exec i s = .next t →
    ∃ a', exec i { s with aptr := a } = .next { t with aptr := a' }

/-- What an operation emits is a function of the operation, its operands and the parameters only, never of the lines, the trace or
the ghost (R20, D25). -/
def Obligations.EventListDependsOnOperandsOnly : Prop :=
  ∀ (c : Config) (i : Instr), ∃ es, ∀ s t : State, s.config = c → exec i s = .next t → t.trace = s.trace ++ es

/-- Only `init` configures a line or drives RW, and it drives RW low (R13, R15, R16). -/
def Obligations.OnlyInitConfiguresAndDrivesRw : Prop :=
  ∀ (i : Instr) (s t : State), exec i s = .next t →
    (i ≠ .init → t.configured = s.configured ∧ t.line.rw = s.line.rw) ∧
    (i = .init → AllConfigured t ∧ t.line.rw = .low)

/-- An operation that has emitted anything leaves EN low (R17, derived there); one that has not leaves every line as it was. -/
def Obligations.EnableIsLowAfterEveryOperation : Prop :=
  ∀ (i : Instr) (s t : State), exec i s = .next t →
    (t.trace ≠ s.trace → t.line.en = .low) ∧ (t.trace = s.trace → t.line = s.line)

/-- A line that holds a level never goes back to X (R67, derived there), from any state in which the record accounts for the
lines. -/
def Obligations.DrivenLinesStayDriven : Prop :=
  ∀ s t : State, RecordInv s → step s = .next t → ∀ l, lineGet s.line l ≠ .x → lineGet t.line l ≠ .x

/-- EN is raised, held for one delay of `T_EN_MS` and dropped, with nothing between (R79, R78 e), and there is no other delay and
no other drive of EN (R44, D2). -/
def Obligations.StrobeIsThreeEventsInARow : Prop :=
  ∀ (i : Instr) (s t : State), exec i s = .next t →
    ∃ es, t.trace = s.trace ++ es ∧ ∀ k,
      (es[k]? = some (.wr .en .high) → es[k + 1]? = some (.dly s.config.tEnMs) ∧ es[k + 2]? = some (.wr .en .low)) ∧
      (∀ n, es[k]? = some (.dly n) → n = s.config.tEnMs ∧ 1 ≤ k ∧ es[k - 1]? = some (.wr .en .high)) ∧
      (es[k]? = some (.wr .en .low) → 2 ≤ k ∧ es[k - 2]? = some (.wr .en .high))

/-- The ghost comes to stand at CGRAM only through a command that addresses it (R26, R99, D20). -/
def Obligations.CgramIsSelectedOnlyByItsCommands : Prop :=
  ∀ (i : Instr) (s t : State), exec i s = .next t → t.aptr = .cgram →
    s.aptr = .cgram ∨ (∃ slot data, i = .createCustomChar slot data) ∨ (∃ k, i = .frameSetCgram k) ∨
      ∃ b, i = .writeCommand b ∧ 0x40 ≤ b.toNat ∧ b.toNat < 0x80

/-- An operation delays `T_EN_MS` once for each of its nibble transfers, and not otherwise (the table of R105, derived there;
R91, D2): among the events it emits there are as many delays of `T_EN_MS` as nibble transfers and no other delay, so their sum is
the lower bound of R105. -/
def Obligations.DelayIsOncePerNibbleTransfer : Prop :=
  ∀ (i : Instr) (s t : State), exec i s = .next t →
    ∃ es, t.trace = s.trace ++ es ∧ es.count (.dly s.config.tEnMs) = transfers i ∧
      (∀ n, .dly n ∈ es → n = s.config.tEnMs) ∧
      delayTotal t.trace = delayTotal s.trace + s.config.tEnMs * transfers i

/-! ## The platform and the calling contexts -/

/-- The calls of the platform an operation makes, in order (R8, R92): `init` configures the seven bound pins, drives the pin of RW
low and sends its frames (R65; their order is D5, log 16); an operation of whole frames makes the calls of its frames; a lone
nibble transfer those of R78. There is no call but these, so none that enables a clock domain (D6, log 17). The frames are
those of R64, R68 to R76 and R54, written out: the level of RS is D4 (log 9, PRESUMED), the characters are D22 (log 10, PRESUMED);
the handshake of D3 and C2, the cell byte as a sum (C1), the unmasked slot of `writeCustomChar` (D14) and bit counts 0 to 3 (D15)
are log 24 (DEDUCED). -/
def Obligations.OperationsMakeTheirPlatformCalls : Prop :=
  ∀ (p : Platform) (s : State), Ready s →
    (∃ t, exec .init s = .next t ∧
      gpioCalls p t = gpioCalls p s ++
        [.configureOutputPin p.binding.rs, .configureOutputPin p.binding.rw, .configureOutputPin p.binding.en,
          .configureOutputPin p.binding.d0, .configureOutputPin p.binding.d1, .configureOutputPin p.binding.d2,
          .configureOutputPin p.binding.d3, .writePin p.binding.rw .low] ++
        handshake.flatMap (frameCalls p s.config.tEnMs)) ∧
    (FrameLinesConfigured s → ∀ i, i ≠ .init → keepsPairing i = true → WellFormed i = true →
      ∃ t, exec i s = .next t ∧
        gpioCalls p t = gpioCalls p s ++ (framesSent i).flatMap (frameCalls p s.config.tEnMs)) ∧
    (FrameLinesConfigured s → ∀ n c, c.toNat ≤ 4 →
      ∃ t, exec (.transferNibble n c) s = .next t ∧
        gpioCalls p t = gpioCalls p s ++ nibbleCalls p s.config.tEnMs n c.toNat)

/-- The wiring of the data lines (R22, U11): a binding is legal when the seven pins are distinct and `D[i]` is wired to the
controller's pin D(4+i), and then the controller receives `D[0]` to `D[3]` on its pins D4 to D7. With distinct pins wired otherwise
it receives on each pin the line that the pin is wired to, that is, a permutation. How the wiring is written down is the model's
choice (log 28, DESIGN CHOICE), and so is a pin's value while its bank's clock is off, where R96 gives none (log 29, DESIGN
CHOICE): of hardware it speaks under the premise that the clocks are on. -/
def Obligations.DataLinesReachTheirControllerPins : Prop :=
  ∀ (p : Platform) (b : Lines LineVal),
    (bindingLegal p = true ↔
      (boundPins p).Nodup ∧ p.wiring.d4 = p.binding.d0 ∧ p.wiring.d5 = p.binding.d1 ∧ p.wiring.d6 = p.binding.d2 ∧
        p.wiring.d7 = p.binding.d3) ∧
    (bindingLegal p = true → received p b = ⟨b.d0, b.d1, b.d2, b.d3⟩) ∧
    ((boundPins p).Nodup → ∀ l,
      (p.wiring.d4 = lineGet p.binding l → (received p b).d4 = lineGet b l) ∧
      (p.wiring.d5 = lineGet p.binding l → (received p b).d5 = lineGet b l) ∧
      (p.wiring.d6 = lineGet p.binding l → (received p b).d6 = lineGet b l) ∧
      (p.wiring.d7 = lineGet p.binding l → (received p b).d7 = lineGet b l))

/-- While an operation runs, a context may only wait at the port (R46, R102, U12, D18): a second operation let in, or a change of
the buffer that the running one was handed, is refused as `OverlappingRequest`, with the state as it is but for the mark. Which
operations were handed a buffer is read from R45, and without one a change of memory does nothing to the block (log 27,
DEDUCED). -/
def Obligations.SerialisationViolationsAreRefused : Prop :=
  ∀ (s : State) (i : Instr) (k : Nat), s.refused = none → s.seq = .busy i k →
    (∀ w, contextStep (.present w) s = .next { s with port := s.port ++ [w] }) ∧
    (∀ j, contextStep (.start j) s =
      .refused (.refuse .overlappingRequest { s with refused := some .overlappingRequest })) ∧
    ((∃ text, i = .writeString text) ∨ (∃ slot data, i = .createCustomChar slot data) →
      contextStep .changeBuffer s =
        .refused (.refuse .overlappingRequest { s with refused := some .overlappingRequest })) ∧
    ((∀ text, i ≠ .writeString text) → (∀ slot data, i ≠ .createCustomChar slot data) →
      contextStep .changeBuffer s = .next s)

/-! ## Nibble, frame, framing -/

/-- The image of a nibble on the lines (R53) in the transfer of R78: with the lines it drives configured, `transferNibble(n, c)`
drives `D[0]` to `D[c-1]` in that order, HIGH for a 1 bit and LOW for a 0 bit, then strobes EN (R79, D2); the lines `D[i]` with
`i >= c` keep their values, and so does everything else. Bit counts 0 to 3 rest on D15 (log 24, DEDUCED). -/
def Obligations.NibbleImageOnDataLines : Prop :=
  ∀ (s : State) (n : Byte) (c : BitVec 3), Ready s → c.toNat ≤ 4 → s.configured.en = true →
    (1 ≤ c.toNat → s.configured.d0 = true) → (2 ≤ c.toNat → s.configured.d1 = true) →
    (3 ≤ c.toNat → s.configured.d2 = true) → (4 ≤ c.toNat → s.configured.d3 = true) →
    exec (.transferNibble n c) s = .next { s with
      trace := s.trace ++ (nibbleEvents s.config.tEnMs n).take c.toNat ++
        [.wr .en .high, .dly s.config.tEnMs, .wr .en .low]
      line := { s.line with
        en := .low
        d0 := if 1 ≤ c.toNat then bitVal (n.getLsbD 0) else s.line.d0
        d1 := if 2 ≤ c.toNat then bitVal (n.getLsbD 1) else s.line.d1
        d2 := if 3 ≤ c.toNat then bitVal (n.getLsbD 2) else s.line.d2
        d3 := if 4 ≤ c.toNat then bitVal (n.getLsbD 3) else s.line.d3 } }

/-- A bit count of 5 to 7 is refused before any event (R78, R89, D15). That the state left stands at position 0 of the operation is
the model's choice (log 6). -/
def Obligations.BitCountAboveFourIsRefused : Prop :=
  ∀ (s : State) (n : Byte) (c : BitVec 3), Ready s → 4 < c.toNat →
    exec (.transferNibble n c) s = .refused (.refuse (.bitCountOutOfRange c)
      { s with seq := .busy (.transferNibble n c) 0, refused := some (.bitCountOutOfRange c) })

/-- R77: a frame is exactly its fifteen events, leaves RS at its level, EN low and `D[i]` at `b[i]`, does not touch RW, updates
the ghost, changes nothing else, and its two EN falling edges latch the high and then the low nibble. -/
def Obligations.FrameIsFifteenEvents : Prop :=
  ∀ (s : State) (b : Byte), Ready s → FrameLinesConfigured s →
    exec (.writeCommand b) s = .next (sent s [⟨rsCmd, b⟩]) ∧
    exec (.writeData b) s = .next (sent s [⟨rsData, b⟩]) ∧
    ∀ rs, latchedFrom s.line (frameEvents s.config.tEnMs ⟨rs, b⟩) =
      [⟨rs.val, s.line.rw, bitVal (b.getLsbD 7), bitVal (b.getLsbD 6), bitVal (b.getLsbD 5), bitVal (b.getLsbD 4)⟩,
        ⟨rs.val, s.line.rw, bitVal (b.getLsbD 3), bitVal (b.getLsbD 2), bitVal (b.getLsbD 1), bitVal (b.getLsbD 0)⟩]

/-- R33 and R52: for a command and for data alike, a byte goes out as two nibble transfers of four bits, `b >> 4 = b[7:4]` first and
`b & 0x0F = b[3:0]` second. -/
def Obligations.HighNibbleGoesFirst : Prop :=
  ∀ (s : State) (b : Byte), Ready s → FrameLinesConfigured s →
    (∃ t, exec (.writeCommand b) s = .next t ∧
      t.trace = s.trace ++ [.wr .rs rsCmd] ++ nibbleEvents s.config.tEnMs (b >>> 4) ++
        nibbleEvents s.config.tEnMs (b &&& 0x0F#8)) ∧
    (∃ t, exec (.writeData b) s = .next t ∧
      t.trace = s.trace ++ [.wr .rs rsData] ++ nibbleEvents s.config.tEnMs (b >>> 4) ++
        nibbleEvents s.config.tEnMs (b &&& 0x0F#8)) ∧
    b >>> 4 = (b.extractLsb' 4 4).setWidth 8 ∧ b &&& 0x0F#8 = (b.extractLsb' 0 4).setWidth 8

/-- Each frame row of the table completes: it sends one frame of the byte its pattern gives, data for FRAME.DATA and a command for
the others (R54, R77, D4). That frame rows are instructions is the model's choice (log 1). -/
def Obligations.FrameRowsSendTheirByte : Prop :=
  ∀ s : State, Ready s → FrameLinesConfigured s →
    exec .frameWake33 s = .next (sent s [cmd 0x33#8]) ∧
    exec .frameWake32 s = .next (sent s [cmd 0x32#8]) ∧
    exec .frameFuncset s = .next (sent s [cmd 0x28#8]) ∧
    exec .frameClear s = .next (sent s [cmd 0x01#8]) ∧
    exec .frameDispon s = .next (sent s [cmd 0x0C#8]) ∧
    exec .frameEntry s = .next (sent s [cmd 0x06#8]) ∧
    (∀ k : BitVec 3, exec (.frameSetCgram k) s = .next (sent s [cmd (BitVec.ofNat 8 (0x40 + 8 * k.toNat))])) ∧
    (∀ a : BitVec 7, exec (.frameSetDdram a) s = .next (sent s [cmd (BitVec.ofNat 8 (0x80 + a.toNat))])) ∧
    (∀ d : Byte, exec (.frameData d) s = .next (sent s [dat d]))

/-! ## The public operations -/

/-- `init` from any ready state, configured or not: seven `CFG` (their order is D5; log 16), RW driven low, six command frames,
98 events; afterwards every line is configured, RS, RW and EN are low, the data lines hold the low nibble of 0x06, and the ghost
is DDRAM (R65, and R67, derived there; D3, D4). -/
def Obligations.InitResult : Prop :=
  ∀ s : State, Ready s →
    ∃ es, es = [.cfg .rs, .cfg .rw, .cfg .en, .cfg .d0, .cfg .d1, .cfg .d2, .cfg .d3, .wr .rw .low] ++
        handshake.flatMap (frameEvents s.config.tEnMs) ∧ es.length = 98 ∧
      exec .init s = .next { s with
        trace := s.trace ++ es
        configured := ⟨true, true, true, true, true, true, true⟩
        line := ⟨.low, .low, .low, .low, .high, .high, .low⟩
        aptr := .ddram }

/-- `writeString` sends one data frame per character, in order, and nothing for the empty text (R68, D4, D11). -/
def Obligations.WriteStringSendsEachCharacter : Prop :=
  ∀ (s : State) (text : List Byte), Ready s → (text ≠ [] → FrameLinesConfigured s) →
    exec (.writeString text) s = .next (sent s (text.map dat))

/-- `writeInt` sends the decimal text of the two's-complement value of its operand as data frames, 1 to 11 of them (R69, R37, D12).
The level of RS is D4 (log 9, PRESUMED), the characters are D22 (log 10, PRESUMED). -/
def Obligations.WriteIntSendsDecimalText : Prop :=
  ∀ (s : State) (number : BitVec 32), Ready s → FrameLinesConfigured s →
    exec (.writeInt number) s = .next (sent s ((dec number.toInt).map dat)) ∧
    1 ≤ (dec number.toInt).length ∧ (dec number.toInt).length ≤ 11

/-- The decimal text follows the equations of R57, with the character codes of R58 (D22, log 10). -/
def Obligations.DecimalTextFollowsItsEquations : Prop :=
  (∀ m, m < 10 → digits m = [BitVec.ofNat 8 (0x30 + m)]) ∧
  (∀ m, 10 ≤ m → digits m = digits (m / 10) ++ [BitVec.ofNat 8 (0x30 + m % 10)]) ∧
  (∀ v : Int, 0 ≤ v → dec v = digits v.toNat) ∧
  (∀ v : Int, v < 0 → dec v = 0x2D#8 :: digits (-v).toNat)

/-- The decimal text is canonical: read as a decimal number it gives the value back, its characters are digits but for one leading
minus of a negative number, and it has no leading zero but in "0" (R57, R69, D22). -/
def Obligations.DecimalTextIsCanonical : Prop :=
  ∀ v : Int, readDecimal (dec v) = v ∧
    (0 ≤ v → AllDigits (dec v) ∧ (v ≠ 0 → (dec v).head? ≠ some 0x30#8)) ∧
    (v < 0 → ∃ cs, dec v = 0x2D#8 :: cs ∧ AllDigits cs ∧ cs.head? ≠ some 0x30#8) ∧
    dec 0 = [0x30#8]

/-- `clearDisplay` sends one command frame, byte 0x01, and leaves the ghost at DDRAM (R70, D4, D20). -/
def Obligations.ClearDisplayResult : Prop :=
  ∀ s : State, Ready s → FrameLinesConfigured s →
    ∃ t, t = sent s [cmd 0x01#8] ∧ exec .clearDisplay s = .next t ∧ t.aptr = .ddram

/-- `gotoxy(x, y)` on a row 0..3 whose sum fits 7 bits sends the one command frame `0x80 + ROW_BASE[y] + x` and leaves the ghost at
DDRAM (R71, R55, C1, D4, D20). -/
def Obligations.GotoxySendsBasePlusColumn : Prop :=
  ∀ (s : State) (x y : Byte), Ready s → FrameLinesConfigured s → y.toNat ≤ 3 → base y + x.toNat ≤ 0x7F →
    ∃ t, t = sent s [cmd (BitVec.ofNat 8 (0x80 + base y + x.toNat))] ∧ exec (.gotoxy x y) s = .next t ∧ t.aptr = .ddram

/-- A row outside 0..3 drops the addressing command, without an error (R60, R81). `gotoxy` then does nothing at all, whatever the
column and whether or not a line is configured; `clearXY` and `writeCustomChar` still make their data write, the latter of all 8
bits of the slot (D14; log 24, DEDUCED); `writeString` of the empty text does nothing. -/
def Obligations.InvalidRowsAreDropped : Prop :=
  ∀ (s : State) (x y slot : Byte), Ready s → 4 ≤ y.toNat →
    exec (.gotoxy x y) s = .next s ∧
    exec (.writeString []) s = .next s ∧
    (FrameLinesConfigured s →
      exec (.clearXY x y) s = .next (sent s [⟨rsData, chSpace⟩]) ∧
      exec (.writeCustomChar x y slot) s = .next (sent s [⟨rsData, slot⟩]))

/-- `clearXY` and `writeCustomChar` on a row 0..3 whose sum fits address the cell and then send one data frame: the space, and all 8
bits of the slot (R72, R73, C1, D4, D14, D22). -/
def Obligations.CellWritesAddressThenWrite : Prop :=
  ∀ (s : State) (x y slot : Byte), Ready s → FrameLinesConfigured s → y.toNat ≤ 3 → base y + x.toNat ≤ 0x7F →
    exec (.clearXY x y) s = .next (sent s [cmd (cellByte x y), dat 0x20#8]) ∧
    exec (.writeCustomChar x y slot) s = .next (sent s [cmd (cellByte x y), dat slot])

/-- Where the sum leaves 7 bits, the three addressing operations are refused before any event, the data write included (R55, R89,
D13). That the state left stands at position 0 of the operation is the model's choice (log 6). -/
def Obligations.AddressOverflowIsRefused : Prop :=
  ∀ (s : State) (x y slot : Byte), Ready s → y.toNat ≤ 3 → 0x7F < base y + x.toNat →
    exec (.gotoxy x y) s = .refused (.refuse (.ddramAddressOverflow x y)
      { s with seq := .busy (.gotoxy x y) 0, refused := some (.ddramAddressOverflow x y) }) ∧
    exec (.clearXY x y) s = .refused (.refuse (.ddramAddressOverflow x y)
      { s with seq := .busy (.clearXY x y) 0, refused := some (.ddramAddressOverflow x y) }) ∧
    exec (.writeCustomChar x y slot) s = .refused (.refuse (.ddramAddressOverflow x y)
      { s with seq := .busy (.writeCustomChar x y slot) 0, refused := some (.ddramAddressOverflow x y) })

/-- R56 and R74: `createCustomChar` sends the command byte `0x40 | ((slot & 0x07) << 3)`, whose eight values are 0x40 to 0x78 in
steps of 8, then the eight data bytes in order, unmasked: 135 events, 18 nibble transfers; RS stands at its data level afterwards,
the data lines hold the low nibble of the last byte, and the ghost is CGRAM. -/
def Obligations.CreateCustomCharResult : Prop :=
  ∀ (s : State) (slot : Byte) (g : Glyph), Ready s → FrameLinesConfigured s →
    ∃ t, exec (.createCustomChar slot g) s = .next t ∧
      t = sent s (⟨rsCmd, 0x40#8 ||| ((slot &&& 0x07#8) <<< 3)⟩ ::
        [g.row0, g.row1, g.row2, g.row3, g.row4, g.row5, g.row6, g.row7].map fun b => ⟨rsData, b⟩) ∧
      (0x40#8 ||| ((slot &&& 0x07#8) <<< 3)) = BitVec.ofNat 8 (0x40 + 8 * (slot.toNat % 8)) ∧
      t.trace.length = s.trace.length + 135 ∧
      delayTotal t.trace = delayTotal s.trace + 18 * s.config.tEnMs ∧
      t.line.rs = rsData.val ∧
      t.line.d0 = bitVal (g.row7.getLsbD 0) ∧ t.line.d1 = bitVal (g.row7.getLsbD 1) ∧
      t.line.d2 = bitVal (g.row7.getLsbD 2) ∧ t.line.d3 = bitVal (g.row7.getLsbD 3) ∧
      t.aptr = .cgram

/-- R61 and R82: `createCustomChar` uses the slot modulo 8, so a slot and its low three bits do the same; `transferNibble` uses only
the low `bitCount` bits of its operand. Neither is rejected. -/
def Obligations.OperandsWrapSilently : Prop :=
  (∀ (s t : State) (slot : Byte) (g : Glyph),
    exec (.createCustomChar slot g) s = .next t ↔
      exec (.createCustomChar (BitVec.ofNat 8 (slot.toNat % 8)) g) s = .next t) ∧
  (∀ (s t : State) (n m : Byte) (c : BitVec 3), (∀ i, i < c.toNat → n.getLsbD i = m.getLsbD i) →
    (exec (.transferNibble n c) s = .next t ↔ exec (.transferNibble m c) s = .next t))

/-- Each composed operation does what the operations of its expansion do one after another (the table of R64; C1, D22). -/
def Obligations.PseudoOperationsExpand : Prop :=
  ∀ s t : State,
    (exec .clearDisplay s = .next t ↔ exec (.writeCommand 0x01#8) s = .next t) ∧
    (∀ number, exec (.writeInt number) s = .next t ↔ exec (.writeString (dec number.toInt)) s = .next t) ∧
    (∀ c cs, exec (.writeString (c :: cs)) s = .next t ↔ runAll [.writeData c, .writeString cs] s = .next t) ∧
    (∀ x y slot, exec (.writeCustomChar x y slot) s = .next t ↔ runAll [.gotoxy x y, .writeData slot] s = .next t) ∧
    (∀ x y, exec (.clearXY x y) s = .next t ↔ runAll [.gotoxy x y, .writeData 0x20#8] s = .next t) ∧
    (∀ slot g, exec (.createCustomChar slot g) s = .next t ↔
      runAll [.writeCommand (0x40#8 ||| ((slot &&& 0x07#8) <<< 3)), .writeString (pixelRows g)] s = .next t)

/-! ## Completion and refusal as a whole -/

/-- Every operation completes from a ready state in which every line is configured, unless its operands alone give a ground of R89
(a bit count above 4, an address sum above 0x7F); `init` completes from any ready state (R10, R65, R84, R89; D8, D13, D15). -/
def Obligations.WellFormedOperationsComplete : Prop :=
  ∀ (i : Instr) (s : State), WellFormed i = true → Ready s → (AllConfigured s ∨ i = .init) →
    ∃ t, exec i s = .next t ∧ Ready t ∧ AllConfigured t

/-- A drive of a line that is not configured is refused (R8, R15, R89, D8). Whatever the first such line in the operation's events,
RS, a data line or EN, the drives before it were made and stay in the trace and on the lines, and nothing after it is (R87). The
position in the state left is the model's choice (log 6, DESIGN CHOICE); the events before the refusal are written out, with
the RS levels of D4 (log 9, PRESUMED) and the characters of D22 (log 10, PRESUMED); the cell byte as a sum (C1), the unmasked slot
of `writeCustomChar` (D14) and bit counts 0 to 3 (D15; a count of 0 meets EN first) are log 24 (DEDUCED). `init` alone configures,
and it configures all seven lines, so a run meets this with none of them configured; the statement holds in every state. -/
def Obligations.UnconfiguredLineIsRefused : Prop :=
  ∀ (s : State) (i : Instr) (es rest : List Event) (l : Line) (v : Level),
    Ready s → WellFormed i = true → i ≠ .init → operationEvents s.config.tEnMs i = es ++ .wr l v :: rest →
    (∀ l' v', .wr l' v' ∈ es → lineGet s.configured l' = true) → lineGet s.configured l = false →
    exec i s = .refused (.refuse (.unconfiguredLine l)
      { s with
        trace := s.trace ++ es
        line := es.foldl follow s.line
        seq := .busy i es.length
        refused := some (.unconfiguredLine l) })

/-! ## What the controller sees -/

/-- The frames reassembled from the trace are exactly the frames the operations were asked to send, in order (R43, derived there):
an operation of whole frames adds its own to those reassembled before it. The frames are written out with the RS levels of D4
(log 9, PRESUMED) and the characters of D22 (log 10, PRESUMED); the handshake of D3 and C2, the cell byte as a sum (C1) and the
unmasked slot of `writeCustomChar` (D14) are log 24 (DEDUCED). -/
def Obligations.FramesReassemble : Prop :=
  ∀ (i : Instr) (s t : State) (fs : List Frame), RecordInv s → (i = .init ∨ s.line.rw = .low) → keepsPairing i = true →
    frames s.trace = some fs → exec i s = .next t → frames t.trace = some (fs ++ framesSent i)

/-- The controller is shown levels only (R42, R16, derived there; D19): every step keeps it that the record accounts for the lines,
that no sampled line is X, that RW is LOW, and that both were so in every latched sample; `init` at reset brings this about; so it
holds after any run that starts with `init` at reset and is not refused. -/
def Obligations.SamplesAreDefinedAfterInit : Prop :=
  (∀ s t : State, SamplingInv s → step s = .next t → SamplingInv t) ∧
  (∃ t, exec .init State.reset = .next t ∧ SamplingInv t) ∧
  (∀ (is : List Instr) (t : State), runAll (.init :: is) State.reset = .next t → SamplingInv t)
end

