-- ==== Sys2Proof/Laws/State.lean ====
section
/-! SUPPORT. One lemma per field per update of the state, and the laws of one value per line. -/

namespace Sys2Proof.Laws

open Sys2Proof.Machine

/-! ## The updates of Machine/Ops.lean -/

@[simp] theorem withSeq_config (s : State) (q : Seq) : (s.withSeq q).config = s.config := rfl
@[simp] theorem withSeq_line (s : State) (q : Seq) : (s.withSeq q).line = s.line := rfl
@[simp] theorem withSeq_configured (s : State) (q : Seq) : (s.withSeq q).configured = s.configured := rfl
@[simp] theorem withSeq_seq (s : State) (q : Seq) : (s.withSeq q).seq = q := rfl
@[simp] theorem withSeq_trace (s : State) (q : Seq) : (s.withSeq q).trace = s.trace := rfl
@[simp] theorem withSeq_aptr (s : State) (q : Seq) : (s.withSeq q).aptr = s.aptr := rfl
@[simp] theorem withSeq_refused (s : State) (q : Seq) : (s.withSeq q).refused = s.refused := rfl
@[simp] theorem withSeq_port (s : State) (q : Seq) : (s.withSeq q).port = s.port := rfl

@[simp] theorem withPort_config (s : State) (p : List PortWord) : (s.withPort p).config = s.config := rfl
@[simp] theorem withPort_line (s : State) (p : List PortWord) : (s.withPort p).line = s.line := rfl
@[simp] theorem withPort_configured (s : State) (p : List PortWord) : (s.withPort p).configured = s.configured := rfl
@[simp] theorem withPort_seq (s : State) (p : List PortWord) : (s.withPort p).seq = s.seq := rfl
@[simp] theorem withPort_trace (s : State) (p : List PortWord) : (s.withPort p).trace = s.trace := rfl
@[simp] theorem withPort_aptr (s : State) (p : List PortWord) : (s.withPort p).aptr = s.aptr := rfl
@[simp] theorem withPort_refused (s : State) (p : List PortWord) : (s.withPort p).refused = s.refused := rfl
@[simp] theorem withPort_port (s : State) (p : List PortWord) : (s.withPort p).port = p := rfl

@[simp] theorem withRefused_config (s : State) (r : Reason) : (s.withRefused r).config = s.config := rfl
@[simp] theorem withRefused_line (s : State) (r : Reason) : (s.withRefused r).line = s.line := rfl
@[simp] theorem withRefused_configured (s : State) (r : Reason) : (s.withRefused r).configured = s.configured := rfl
@[simp] theorem withRefused_seq (s : State) (r : Reason) : (s.withRefused r).seq = s.seq := rfl
@[simp] theorem withRefused_trace (s : State) (r : Reason) : (s.withRefused r).trace = s.trace := rfl
@[simp] theorem withRefused_aptr (s : State) (r : Reason) : (s.withRefused r).aptr = s.aptr := rfl
@[simp] theorem withRefused_refused (s : State) (r : Reason) : (s.withRefused r).refused = some r := rfl
@[simp] theorem withRefused_port (s : State) (r : Reason) : (s.withRefused r).port = s.port := rfl

@[simp] theorem withAptr_config (s : State) (a : Aptr) : (s.withAptr a).config = s.config := rfl
@[simp] theorem withAptr_line (s : State) (a : Aptr) : (s.withAptr a).line = s.line := rfl
@[simp] theorem withAptr_configured (s : State) (a : Aptr) : (s.withAptr a).configured = s.configured := rfl
@[simp] theorem withAptr_seq (s : State) (a : Aptr) : (s.withAptr a).seq = s.seq := rfl
@[simp] theorem withAptr_trace (s : State) (a : Aptr) : (s.withAptr a).trace = s.trace := rfl
@[simp] theorem withAptr_aptr (s : State) (a : Aptr) : (s.withAptr a).aptr = a := rfl
@[simp] theorem withAptr_refused (s : State) (a : Aptr) : (s.withAptr a).refused = s.refused := rfl
@[simp] theorem withAptr_port (s : State) (a : Aptr) : (s.withAptr a).port = s.port := rfl

@[simp] theorem record_config (s : State) (e : Event) : (s.record e).config = s.config := rfl
@[simp] theorem record_line (s : State) (e : Event) : (s.record e).line = s.line := rfl
@[simp] theorem record_configured (s : State) (e : Event) : (s.record e).configured = s.configured := rfl
@[simp] theorem record_seq (s : State) (e : Event) : (s.record e).seq = s.seq := rfl
@[simp] theorem record_trace (s : State) (e : Event) : (s.record e).trace = s.trace ++ [e] := rfl
@[simp] theorem record_aptr (s : State) (e : Event) : (s.record e).aptr = s.aptr := rfl
@[simp] theorem record_refused (s : State) (e : Event) : (s.record e).refused = s.refused := rfl
@[simp] theorem record_port (s : State) (e : Event) : (s.record e).port = s.port := rfl

@[simp] theorem setLine_config (s : State) (l : Line) (v : LineVal) : (s.setLine l v).config = s.config := rfl
@[simp] theorem setLine_line (s : State) (l : Line) (v : LineVal) : (s.setLine l v).line = lineSet s.line l v := rfl
@[simp] theorem setLine_configured (s : State) (l : Line) (v : LineVal) : (s.setLine l v).configured = s.configured := rfl
@[simp] theorem setLine_seq (s : State) (l : Line) (v : LineVal) : (s.setLine l v).seq = s.seq := rfl
@[simp] theorem setLine_trace (s : State) (l : Line) (v : LineVal) : (s.setLine l v).trace = s.trace := rfl
@[simp] theorem setLine_aptr (s : State) (l : Line) (v : LineVal) : (s.setLine l v).aptr = s.aptr := rfl
@[simp] theorem setLine_refused (s : State) (l : Line) (v : LineVal) : (s.setLine l v).refused = s.refused := rfl
@[simp] theorem setLine_port (s : State) (l : Line) (v : LineVal) : (s.setLine l v).port = s.port := rfl

@[simp] theorem floatLine_config (s : State) (l : Line) : (s.floatLine l).config = s.config := rfl
@[simp] theorem floatLine_line (s : State) (l : Line) :
    (s.floatLine l).line = if lineGet s.configured l then s.line else lineSet s.line l .x := rfl
@[simp] theorem floatLine_configured (s : State) (l : Line) : (s.floatLine l).configured = s.configured := rfl
@[simp] theorem floatLine_seq (s : State) (l : Line) : (s.floatLine l).seq = s.seq := rfl
@[simp] theorem floatLine_trace (s : State) (l : Line) : (s.floatLine l).trace = s.trace := rfl
@[simp] theorem floatLine_aptr (s : State) (l : Line) : (s.floatLine l).aptr = s.aptr := rfl
@[simp] theorem floatLine_refused (s : State) (l : Line) : (s.floatLine l).refused = s.refused := rfl
@[simp] theorem floatLine_port (s : State) (l : Line) : (s.floatLine l).port = s.port := rfl

@[simp] theorem setConfigured_config (s : State) (l : Line) : (s.setConfigured l).config = s.config := rfl
@[simp] theorem setConfigured_line (s : State) (l : Line) : (s.setConfigured l).line = s.line := rfl
@[simp] theorem setConfigured_configured (s : State) (l : Line) : (s.setConfigured l).configured = lineSet s.configured l true := rfl
@[simp] theorem setConfigured_seq (s : State) (l : Line) : (s.setConfigured l).seq = s.seq := rfl
@[simp] theorem setConfigured_trace (s : State) (l : Line) : (s.setConfigured l).trace = s.trace := rfl
@[simp] theorem setConfigured_aptr (s : State) (l : Line) : (s.setConfigured l).aptr = s.aptr := rfl
@[simp] theorem setConfigured_refused (s : State) (l : Line) : (s.setConfigured l).refused = s.refused := rfl
@[simp] theorem setConfigured_port (s : State) (l : Line) : (s.setConfigured l).port = s.port := rfl

/-- Moving the sequencer twice is moving it once. -/
@[simp] theorem withSeq_withSeq (s : State) (q q' : Seq) : (s.withSeq q).withSeq q' = s.withSeq q' := rfl

/-- Moving the sequencer where it stands changes nothing. -/
theorem withSeq_self (s : State) {q : Seq} (h : s.seq = q) : s.withSeq q = s := by
  subst h
  rfl

/-- States that agree on every field are equal. -/
theorem state_ext {a b : State} (h1 : a.config = b.config) (h2 : a.line = b.line) (h3 : a.configured = b.configured)
    (h4 : a.seq = b.seq) (h5 : a.trace = b.trace) (h6 : a.aptr = b.aptr) (h7 : a.refused = b.refused)
    (h8 : a.port = b.port) : a = b := by
  cases a
  cases b
  simp_all

/-! ## One value per line -/

variable {α : Type}

@[simp] theorem lineGet_lineSet_self (b : Lines α) (l : Line) (v : α) : lineGet (lineSet b l v) l = v := by
  cases l <;> rfl

theorem lineGet_lineSet_ne (b : Lines α) {l k : Line} (v : α) (h : k ≠ l) :
    lineGet (lineSet b l v) k = lineGet b k := by
  cases l <;> cases k <;> first | rfl | exact absurd rfl h

theorem lineGet_lineSet (b : Lines α) (l k : Line) (v : α) :
    lineGet (lineSet b l v) k = if k = l then v else lineGet b k := by
  by_cases h : k = l
  · subst h
    simp
  · simp [h, lineGet_lineSet_ne b v h]

/-- Two blocks of lines that agree on every line are equal. -/
theorem lines_ext {a b : Lines α} (h : ∀ l, lineGet a l = lineGet b l) : a = b := by
  cases a
  cases b
  have h1 := h .rs
  have h2 := h .rw
  have h3 := h .en
  have h4 := h .d0
  have h5 := h .d1
  have h6 := h .d2
  have h7 := h .d3
  simp only [lineGet] at h1 h2 h3 h4 h5 h6 h7
  simp [h1, h2, h3, h4, h5, h6, h7]

end Sys2Proof.Laws
end

