-- ==== Sys2Proof/Laws/Ops.lean ====
section
/-! SUPPORT. What each shared operation of Machine/Ops.lean can do, said once: the primitives, the events of a plan, accepting
and running an operation. -/

namespace Sys2Proof.Laws

open Sys2Proof.Machine

/-! ## Outcomes -/

@[simp] theorem andThen_next (s : State) (f : State → Result) : andThen (.next s) f = f s := rfl

@[simp] theorem andThen_refused (e : Refusal) (f : State → Result) : andThen (.refused e) f = .refused e := rfl

@[simp] theorem andThen_refuse (r : Reason) (s : State) (f : State → Result) : andThen (refuse r s) f = refuse r s := rfl

/-- Going on ends in a next state exactly through a next state. -/
theorem andThen_eq_next {r : Result} {f : State → Result} {t : State} :
    andThen r f = .next t ↔ ∃ s, r = .next s ∧ f s = .next t := by
  cases r with
  | next s => simp
  | fault e => exact nomatch e
  | refused e => simp

/-- Going on is refused when the first part is, or the second. -/
theorem andThen_eq_refused {r : Result} {f : State → Result} {e : Refusal} :
    andThen r f = .refused e ↔ r = .refused e ∨ ∃ s, r = .next s ∧ f s = .refused e := by
  cases r with
  | next s => simp
  | fault e => exact nomatch e
  | refused e => simp

theorem andThen_assoc (r : Result) (f g : State → Result) :
    andThen (andThen r f) g = andThen r fun s => andThen (f s) g := by
  cases r <;> rfl

/-! ## One event -/

/-- The effect of an event that is not refused. -/
def effect (e : Event) (s : State) : State :=
  match e with
  | .cfg l => cfgLine l s
  | .wr l v => writeLine l v s
  | .dly n => delayMs n s

/-- The line an event drives is configured (R15); the other events are always issued. -/
def Allowed (e : Event) (s : State) : Prop := ∀ l v, e = .wr l v → lineGet s.configured l = true

theorem issue_of_allowed {e : Event} {s : State} (h : Allowed e s) : issue e s = .next (effect e s) := by
  cases e with
  | cfg l => rfl
  | wr l v => simp [issue, drive, effect, h l v rfl]
  | dly n => rfl

/-- An event is issued, or it drives a line that is not configured and is refused with the state as it was. -/
theorem issue_cases (e : Event) (s : State) :
    (Allowed e s ∧ issue e s = .next (effect e s)) ∨
      ∃ l v, e = .wr l v ∧ lineGet s.configured l = false ∧ issue e s = refuse (.unconfiguredLine l) s := by
  by_cases h : Allowed e s
  · exact .inl ⟨h, issue_of_allowed h⟩
  · refine .inr ?_
    simp only [Allowed, not_forall] at h
    obtain ⟨l, v, rfl, hl⟩ := h
    have hl' : lineGet s.configured l = false := by simpa using hl
    exact ⟨l, v, rfl, hl', by simp [issue, drive, hl']⟩

@[simp] theorem effect_config (e : Event) (s : State) : (effect e s).config = s.config := by
  cases e <;> rfl

@[simp] theorem effect_seq (e : Event) (s : State) : (effect e s).seq = s.seq := by
  cases e <;> rfl

@[simp] theorem effect_trace (e : Event) (s : State) : (effect e s).trace = s.trace ++ [e] := by
  cases e <;> rfl

@[simp] theorem effect_aptr (e : Event) (s : State) : (effect e s).aptr = s.aptr := by
  cases e <;> rfl

@[simp] theorem effect_refused (e : Event) (s : State) : (effect e s).refused = s.refused := by
  cases e <;> rfl

@[simp] theorem effect_port (e : Event) (s : State) : (effect e s).port = s.port := by
  cases e <;> rfl

@[simp] theorem effect_cfg_configured (l : Line) (s : State) :
    (effect (.cfg l) s).configured = lineSet s.configured l true := by
  rfl

@[simp] theorem effect_wr_configured (l : Line) (v : Level) (s : State) :
    (effect (.wr l v) s).configured = s.configured := rfl

@[simp] theorem effect_dly_configured (n : Nat) (s : State) : (effect (.dly n) s).configured = s.configured := rfl

@[simp] theorem effect_wr_line (l : Line) (v : Level) (s : State) :
    (effect (.wr l v) s).line = lineSet s.line l v.val := rfl

@[simp] theorem effect_dly_line (n : Nat) (s : State) : (effect (.dly n) s).line = s.line := rfl

/-- `cfg` keeps the value of a configured line and makes that of another X (R8, R14). -/
theorem effect_cfg_line (l : Line) (s : State) :
    (effect (.cfg l) s).line = if lineGet s.configured l then s.line else lineSet s.line l .x := by
  rfl

/-- No event unconfigures a line. -/
theorem effect_configured_mono (e : Event) {s : State} {l : Line} (h : lineGet s.configured l = true) :
    lineGet (effect e s).configured l = true := by
  cases e with
  | cfg k => simp [lineGet_lineSet, h]
  | wr k v => simpa using h
  | dly n => simpa using h

/-- An event does not look at the sequencer. -/
theorem effect_withSeq (e : Event) (s : State) (q : Seq) : effect e (s.withSeq q) = (effect e s).withSeq q := by
  cases e <;> rfl

/-! ## One event of a plan -/

/-- An event of a plan with its ghost update. -/
def applyMicro (s : State) (m : Micro) : State := (effect m.event s).endFrame m.ends

@[simp] theorem endFrame_config (s : State) (o : Option Frame) : (s.endFrame o).config = s.config := by cases o <;> rfl
@[simp] theorem endFrame_line (s : State) (o : Option Frame) : (s.endFrame o).line = s.line := by cases o <;> rfl
@[simp] theorem endFrame_configured (s : State) (o : Option Frame) : (s.endFrame o).configured = s.configured := by
  cases o <;> rfl
@[simp] theorem endFrame_seq (s : State) (o : Option Frame) : (s.endFrame o).seq = s.seq := by cases o <;> rfl
@[simp] theorem endFrame_trace (s : State) (o : Option Frame) : (s.endFrame o).trace = s.trace := by cases o <;> rfl
@[simp] theorem endFrame_refused (s : State) (o : Option Frame) : (s.endFrame o).refused = s.refused := by cases o <;> rfl
@[simp] theorem endFrame_port (s : State) (o : Option Frame) : (s.endFrame o).port = s.port := by cases o <;> rfl

/-- The ghost update does not look at the sequencer. -/
theorem endFrame_withSeq (s : State) (q : Seq) (o : Option Frame) :
    (s.withSeq q).endFrame o = (s.endFrame o).withSeq q := by
  cases o <;> rfl

@[simp] theorem applyMicro_config (s : State) (m : Micro) : (applyMicro s m).config = s.config := by simp [applyMicro]
@[simp] theorem applyMicro_seq (s : State) (m : Micro) : (applyMicro s m).seq = s.seq := by simp [applyMicro]
@[simp] theorem applyMicro_trace (s : State) (m : Micro) : (applyMicro s m).trace = s.trace ++ [m.event] := by
  simp [applyMicro]
@[simp] theorem applyMicro_refused (s : State) (m : Micro) : (applyMicro s m).refused = s.refused := by simp [applyMicro]
@[simp] theorem applyMicro_port (s : State) (m : Micro) : (applyMicro s m).port = s.port := by simp [applyMicro]
@[simp] theorem applyMicro_line (s : State) (m : Micro) : (applyMicro s m).line = (effect m.event s).line := by
  simp [applyMicro]
@[simp] theorem applyMicro_configured (s : State) (m : Micro) :
    (applyMicro s m).configured = (effect m.event s).configured := by
  simp [applyMicro]

/-- Only the last event of a frame moves the ghost (R26). -/
@[simp] theorem applyMicro_aptr_none (s : State) (e : Event) : (applyMicro s ⟨e, none⟩).aptr = s.aptr := by
  simp [applyMicro, State.endFrame]
@[simp] theorem applyMicro_aptr_some (s : State) (e : Event) (f : Frame) :
    (applyMicro s ⟨e, some f⟩).aptr = aptrAfter f s.aptr := by
  simp [applyMicro, State.endFrame]

theorem applyMicro_withSeq (s : State) (q : Seq) (m : Micro) :
    applyMicro (s.withSeq q) m = (applyMicro s m).withSeq q := by
  simp only [applyMicro, effect_withSeq, endFrame_withSeq]

/-- An event of a plan is issued, or refused with the state as it was. -/
theorem emit_cases (m : Micro) (s : State) :
    (Allowed m.event s ∧ emit m s = .next (applyMicro s m)) ∨
      ∃ l v, m.event = .wr l v ∧ lineGet s.configured l = false ∧ emit m s = refuse (.unconfiguredLine l) s := by
  rcases issue_cases m.event s with ⟨ha, h⟩ | ⟨l, v, he, hl, h⟩
  · exact .inl ⟨ha, by simp [emit, h, applyMicro]⟩
  · exact .inr ⟨l, v, he, hl, by simp [emit, h]⟩

theorem emit_of_allowed {m : Micro} {s : State} (h : Allowed m.event s) : emit m s = .next (applyMicro s m) := by
  simp [emit, issue_of_allowed h, applyMicro]

/-- An event that is issued was allowed and had its effect. -/
theorem emit_eq_next {m : Micro} {s t : State} : emit m s = .next t ↔ Allowed m.event s ∧ t = applyMicro s m := by
  constructor
  · intro h
    rcases emit_cases m s with ⟨ha, he⟩ | ⟨l, v, _, _, he⟩
    · rw [he] at h
      exact ⟨ha, by injection h with h; exact h.symm⟩
    · rw [he] at h
      exact absurd h (by simp [refuse])
  · rintro ⟨ha, rfl⟩
    exact emit_of_allowed ha

/-! ## The events of a plan -/

/-- The state after all these events. -/
def applyAll (s : State) (ms : List Micro) : State := ms.foldl applyMicro s

/-- Every event is allowed when its turn comes. -/
def Runnable : List Micro → State → Prop
  | [], _ => True
  | m :: ms, s => Allowed m.event s ∧ Runnable ms (applyMicro s m)

@[simp] theorem applyAll_nil (s : State) : applyAll s [] = s := rfl
@[simp] theorem applyAll_cons (s : State) (m : Micro) (ms : List Micro) :
    applyAll s (m :: ms) = applyAll (applyMicro s m) ms := rfl
theorem applyAll_append (s : State) (ms ns : List Micro) : applyAll s (ms ++ ns) = applyAll (applyAll s ms) ns := by
  simp [applyAll]

theorem runnable_append {ms ns : List Micro} {s : State} :
    Runnable (ms ++ ns) s ↔ Runnable ms s ∧ Runnable ns (applyAll s ms) := by
  induction ms generalizing s with
  | nil => simp [Runnable]
  | cons m ms ih => simp [Runnable, ih, and_assoc]

@[simp] theorem applyAll_config (s : State) (ms : List Micro) : (applyAll s ms).config = s.config := by
  induction ms generalizing s with
  | nil => rfl
  | cons m ms ih => simp [ih]

@[simp] theorem applyAll_seq (s : State) (ms : List Micro) : (applyAll s ms).seq = s.seq := by
  induction ms generalizing s with
  | nil => rfl
  | cons m ms ih => simp [ih]

@[simp] theorem applyAll_refused (s : State) (ms : List Micro) : (applyAll s ms).refused = s.refused := by
  induction ms generalizing s with
  | nil => rfl
  | cons m ms ih => simp [ih]

@[simp] theorem applyAll_port (s : State) (ms : List Micro) : (applyAll s ms).port = s.port := by
  induction ms generalizing s with
  | nil => rfl
  | cons m ms ih => simp [ih]

/-- Running events appends exactly them to the trace (R25, R41). -/
@[simp] theorem applyAll_trace (s : State) (ms : List Micro) :
    (applyAll s ms).trace = s.trace ++ ms.map Micro.event := by
  induction ms generalizing s with
  | nil => simp
  | cons m ms ih => simp [ih]

theorem applyAll_withSeq (s : State) (q : Seq) (ms : List Micro) :
    applyAll (s.withSeq q) ms = (applyAll s ms).withSeq q := by
  induction ms generalizing s with
  | nil => rfl
  | cons m ms ih => simp [applyMicro_withSeq, ih]

theorem allowed_withSeq {e : Event} {s : State} {q : Seq} : Allowed e (s.withSeq q) ↔ Allowed e s := Iff.rfl

theorem runnable_withSeq {ms : List Micro} {s : State} {q : Seq} : Runnable ms (s.withSeq q) ↔ Runnable ms s := by
  induction ms generalizing s with
  | nil => exact Iff.rfl
  | cons m ms ih => simp [Runnable, allowed_withSeq, applyMicro_withSeq, ih]

/-- Events that configure nothing and drive only configured lines can all be issued. -/
theorem runnable_of_configured {ms : List Micro} {s : State}
    (h : ∀ m ∈ ms, ∀ l v, m.event = .wr l v → lineGet s.configured l = true) : Runnable ms s := by
  induction ms generalizing s with
  | nil => trivial
  | cons m ms ih =>
    refine ⟨fun l v he => h m (by simp) l v he, ih fun n hn l v he => ?_⟩
    rw [applyMicro_configured]
    exact effect_configured_mono _ (h n (by simp [hn]) l v he)

/-- Events do not look at the port. -/
theorem applyMicro_withPort (s : State) (p : List PortWord) (m : Micro) :
    applyMicro (s.withPort p) m = (applyMicro s m).withPort p := by
  obtain ⟨e, o⟩ := m
  cases e <;> cases o <;> rfl

theorem applyAll_withPort (s : State) (p : List PortWord) (ms : List Micro) :
    applyAll (s.withPort p) ms = (applyAll s ms).withPort p := by
  induction ms generalizing s with
  | nil => rfl
  | cons m ms ih => simp only [applyAll_cons, applyMicro_withPort, ih]

theorem runnable_withPort {s : State} {p : List PortWord} {ms : List Micro} :
    Runnable ms (s.withPort p) ↔ Runnable ms s := by
  induction ms generalizing s with
  | nil => exact Iff.rfl
  | cons m ms ih => simp only [Runnable, applyMicro_withPort, ih]; exact Iff.rfl

/-- Events that end no frame leave the ghost alone (R26). -/
theorem applyAll_aptr_of_no_end {ms : List Micro} (h : ∀ m ∈ ms, m.ends = none) (s : State) :
    (applyAll s ms).aptr = s.aptr := by
  induction ms generalizing s with
  | nil => rfl
  | cons m ms ih =>
    rw [applyAll_cons, ih fun n hn => h n (by simp [hn])]
    obtain ⟨e, o⟩ := m
    have ho : o = none := h ⟨e, o⟩ (by simp)
    subst ho
    simp

/-! ## Running an operation -/

/-- Running the events that remain ends in a next state exactly when no refusal is reached, and then with all their effects. -/
theorem runFrom_eq_next {i : Instr} {stop : Option Reason} {upc : Nat} {ms : List Micro} {s t : State} :
    runFrom i stop upc ms s = .next t ↔ stop = none ∧ Runnable ms s ∧ t = (applyAll s ms).withSeq .idle := by
  induction ms generalizing upc s with
  | nil =>
    cases stop with
    | none => simp [runFrom, Runnable, eq_comm]
    | some r => simp [runFrom, refuse]
  | cons m ms ih =>
    simp only [runFrom, andThen_eq_next, emit_eq_next, ih, Runnable, applyAll_cons, allowed_withSeq]
    constructor
    · rintro ⟨u, ⟨ha, rfl⟩, hs, hr, rfl⟩
      exact ⟨hs, ⟨ha, by simpa [applyMicro_withSeq, runnable_withSeq] using hr⟩, by
        simp [applyMicro_withSeq, applyAll_withSeq]⟩
    · rintro ⟨hs, ⟨ha, hr⟩, rfl⟩
      exact ⟨_, ⟨ha, rfl⟩, hs, by simpa [applyMicro_withSeq, runnable_withSeq] using hr, by
        simp [applyMicro_withSeq, applyAll_withSeq]⟩

/-- Where running events is refused, some of them were issued, and the state left holds their effects, the position and the
mark (R87, R89). -/
theorem runFrom_refused {i : Instr} {stop : Option Reason} {upc : Nat} {ms : List Micro} {s : State} {e : Refusal}
    (h : runFrom i stop upc ms s = .refused e) :
    ∃ k r, k ≤ ms.length ∧ Runnable (ms.take k) s ∧
      e = .refuse r (((applyAll s (ms.take k)).withSeq (.busy i (upc + k))).withRefused r) ∧
      ((k = ms.length ∧ stop = some r) ∨
        ∃ m l v, ms[k]? = some m ∧ m.event = .wr l v ∧ lineGet (applyAll s (ms.take k)).configured l = false ∧
          r = .unconfiguredLine l) := by
  induction ms generalizing upc s with
  | nil =>
    cases stop with
    | none => simp [runFrom] at h
    | some r =>
      refine ⟨0, r, by simp, trivial, ?_, .inl ⟨rfl, rfl⟩⟩
      simp only [runFrom, refuse, Host.Outcome.refused.injEq] at h
      exact h.symm
  | cons m ms ih =>
    simp only [runFrom] at h
    rcases emit_cases m (s.withSeq (.busy i upc)) with ⟨ha, he⟩ | ⟨l, v, hm, hl, he⟩
    · rw [he, andThen_next] at h
      obtain ⟨k, r, hk, hr, rfl, hc⟩ := ih h
      refine ⟨k + 1, r, by simpa using hk, ⟨ha, ?_⟩, ?_, ?_⟩
      · simpa [applyMicro_withSeq, runnable_withSeq] using hr
      · simp [applyMicro_withSeq, applyAll_withSeq, Nat.add_assoc, Nat.add_comm 1 k]
      · rcases hc with ⟨hk, hs⟩ | ⟨n, l, v, hn, hnl, hc, hr⟩
        · exact .inl ⟨by simp [hk], hs⟩
        · exact .inr ⟨n, l, v, by simpa using hn, hnl, by
            simpa [applyMicro_withSeq, applyAll_withSeq] using hc, hr⟩
    · rw [he, andThen_refuse] at h
      refine ⟨0, .unconfiguredLine l, by simp, trivial, ?_, .inr ⟨m, l, v, rfl, hm, hl, rfl⟩⟩
      simp only [refuse, Host.Outcome.refused.injEq] at h
      exact h.symm

/-- An operation is accepted exactly by a block that is idle and not refused. -/
theorem accept_eq_next {i : Instr} {s t : State} :
    accept i s = .next t ↔ s.seq = .idle ∧ s.refused = none ∧ t = s.withSeq (.busy i 0) := by
  unfold accept
  cases hr : s.refused with
  | some r => simp
  | none =>
    cases hq : s.seq with
    | idle => simp [eq_comm]
    | busy j k => simp [refuse]

/-- An operation ends in a next state exactly when the block was ready and its plan reaches no refusal; then the state is that
of its whole event list. -/
theorem perform_eq_next {i : Instr} {p : Plan} {s t : State} :
    perform i p s = .next t ↔
      s.seq = .idle ∧ s.refused = none ∧ p.stop = none ∧ Runnable p.steps s ∧ t = applyAll s p.steps := by
  simp only [perform, andThen_eq_next, accept_eq_next, runFrom_eq_next]
  constructor
  · rintro ⟨_, ⟨hq, hr, rfl⟩, hs, hrun, rfl⟩
    refine ⟨hq, hr, hs, runnable_withSeq.mp hrun, ?_⟩
    rw [applyAll_withSeq, withSeq_withSeq]
    exact withSeq_self _ (by simpa using hq)
  · rintro ⟨hq, hr, hs, hrun, rfl⟩
    refine ⟨_, ⟨hq, hr, rfl⟩, hs, runnable_withSeq.mpr hrun, ?_⟩
    rw [applyAll_withSeq, withSeq_withSeq]
    exact (withSeq_self _ (by simpa using hq)).symm

/-- A refused state refuses every operation, with the state as it is (R10). -/
theorem perform_of_refused {i : Instr} {p : Plan} {s : State} {r : Reason} (h : s.refused = some r) :
    perform i p s = .refused (.refuse r s) := by
  simp [perform, accept, h]

/-- An operation run while another runs overlaps it (R46, R89). -/
theorem perform_of_busy {i j : Instr} {p : Plan} {s : State} {k : Nat} (hr : s.refused = none)
    (hq : s.seq = .busy j k) : perform i p s = refuse .overlappingRequest s := by
  simp [perform, accept, hr, hq]

/-- On a ready block an operation runs its event list. -/
theorem perform_of_ready {i : Instr} {p : Plan} {s : State} (hq : s.seq = .idle) (hr : s.refused = none) :
    perform i p s = runFrom i p.stop 0 p.steps (s.withSeq (.busy i 0)) := by
  simp [perform, accept, hr, hq]

end Sys2Proof.Laws
end

