-- ==== Sys2Proof/Laws/Contexts.lean ====
section
/-! SUPPORT. What a context's action can do to the block. -/

namespace Sys2Proof.Laws

open Sys2Proof.Machine

/-- A context's action that gives a next state leaves all that has been emitted, the lines and the ghost alone: it adds a word to
the port, or starts an operation on a ready block, or does nothing to the block. -/
theorem contextStep_next_cases {a : ContextAction} {s t : State} (h : contextStep a s = .next t) :
    (∃ w, a = .present w ∧ t = s.withPort (s.port ++ [w])) ∨
      (∃ i, a = .start i ∧ s.seq = .idle ∧ s.refused = none ∧
        t = s.withSeq (seqAt i (planOf s.config i) 0)) ∨
      (a = .changeBuffer ∧ s.refused = none ∧ t = s) := by
  cases a with
  | present w =>
    simp only [contextStep, State.present, Host.Outcome.next.injEq] at h
    exact .inl ⟨w, rfl, h.symm⟩
  | start i =>
    simp only [contextStep, acceptStep, andThen_eq_next, accept_eq_next] at h
    obtain ⟨_, ⟨hq, hr, rfl⟩, h⟩ := h
    injection h with h
    exact .inr (.inl ⟨i, rfl, hq, hr, by simpa using h.symm⟩)
  | changeBuffer =>
    simp only [contextStep, changeBuffer] at h
    cases hr : s.refused with
    | some r => simp [hr] at h
    | none =>
      simp only [hr] at h
      refine .inr (.inr ⟨rfl, rfl, ?_⟩)
      cases hq : s.seq with
      | idle =>
        simp only [hq] at h
        injection h with h
        exact h.symm
      | busy i k =>
        simp only [hq] at h
        split at h
        · cases h
        · injection h with h
          exact h.symm

end Sys2Proof.Laws
end

