-- ==== Sys2Proof/Laws/Gpio.lean ====
section
/-! SUPPORT. The platform's pins and calls. -/

namespace Sys2Proof.Laws

open Sys2Proof.Machine

/-- Where no two lines share a pin, the pin of a line has the line's value. -/
theorem pinValue_of_binding {p : Platform} (h : (boundPins p).Nodup) (b : Lines LineVal) (l : Line) :
    pinValue p b (lineGet p.binding l) = lineGet b l := by
  simp only [boundPins, List.nodup_cons, List.mem_cons, List.not_mem_nil, or_false, not_or] at h
  cases l <;> simp_all [pinValue, allLines, lineGet]

/-- A longer trace is a longer list of calls. -/
theorem gpioCalls_append {p : Platform} {s t : State} {es : List Event} (h : t.trace = s.trace ++ es) :
    gpioCalls p t = gpioCalls p s ++ es.map (gpioCall p) := by
  simp [gpioCalls, h]

end Sys2Proof.Laws
end

