-- ==== Sys2Proof/Laws/PerInstr.lean ====
section
/-! SUPPORT. Lemmas made per instruction: every constructor's word decodes to it. -/

namespace Sys2Proof.Laws.RoundTrip

/-- The word of `i` decodes to `i` (30_encoding.md R49, R50, R54). -/
def Statement (i : Instr) : Prop := decode (encode i) = .ok i

theorem init : Statement .init := rfl
theorem writeString (text : List Byte) : Statement (.writeString text) := rfl
theorem writeInt (number : BitVec 32) : Statement (.writeInt number) := rfl
theorem clearDisplay : Statement .clearDisplay := rfl
theorem gotoxy (x y : Byte) : Statement (.gotoxy x y) := rfl
theorem writeCustomChar (x y slot : Byte) : Statement (.writeCustomChar x y slot) := rfl
theorem clearXY (x y : Byte) : Statement (.clearXY x y) := rfl
theorem createCustomChar (slot : Byte) (data : Glyph) : Statement (.createCustomChar slot data) := rfl
theorem writeCommand (byte : Byte) : Statement (.writeCommand byte) := rfl
theorem writeData (byte : Byte) : Statement (.writeData byte) := rfl
theorem transferNibble (nibble : Byte) (bitCount : BitVec 3) : Statement (.transferNibble nibble bitCount) := rfl
theorem frameWake33 : Statement .frameWake33 := rfl
theorem frameWake32 : Statement .frameWake32 := rfl
theorem frameFuncset : Statement .frameFuncset := rfl
theorem frameClear : Statement .frameClear := rfl
theorem frameDispon : Statement .frameDispon := rfl
theorem frameEntry : Statement .frameEntry := rfl

theorem frameSetCgram (s : BitVec 3) : Statement (.frameSetCgram s) := by
  have h : ∀ s : BitVec 3, decodeFrame (rowSetCgram.pattern ||| (s.setWidth 9 <<< 3)) = .frameSetCgram s := by decide
  simp [Statement, encode, decode, h s]

theorem frameSetDdram (a : BitVec 7) : Statement (.frameSetDdram a) := by
  have h : ∀ a : BitVec 7, decodeFrame (rowSetDdram.pattern ||| a.setWidth 9) = .frameSetDdram a := by decide +kernel
  simp [Statement, encode, decode, h a]

theorem frameData (d : Byte) : Statement (.frameData d) := by
  have h : ∀ d : Byte, decodeFrame (rowData.pattern ||| d.setWidth 9) = .frameData d := by decide +kernel
  simp [Statement, encode, decode, h d]

end Sys2Proof.Laws.RoundTrip
end

