-- ==== Sys2Proof/Laws/Plans.lean ====
section
/-! SUPPORT. The event lists of the plans: what a nibble transfer, a frame and each operation emit, and the effect of a frame on
the state. -/

namespace Sys2Proof.Laws

open Sys2Proof.Machine

/-! ## Composition -/

@[simp] theorem followedBy_steps {p q : Plan} (h : p.stop = none) : (p.followedBy q).steps = p.steps ++ q.steps := by
  simp [Plan.followedBy, h]

@[simp] theorem followedBy_stop {p q : Plan} (h : p.stop = none) : (p.followedBy q).stop = q.stop := by
  simp [Plan.followedBy, h]

@[simp] theorem sequence_nil : Plan.sequence [] = ⟨[], none⟩ := rfl

@[simp] theorem sequence_cons (p : Plan) (ps : List Plan) :
    Plan.sequence (p :: ps) = p.followedBy (Plan.sequence ps) := rfl

/-- Plans that reach no refusal, one after another, reach none. -/
theorem sequence_stop {ps : List Plan} (h : ∀ p ∈ ps, p.stop = none) : (Plan.sequence ps).stop = none := by
  induction ps with
  | nil => rfl
  | cons p ps ih => rw [sequence_cons, followedBy_stop (h p (by simp)), ih fun q hq => h q (by simp [hq])]

/-- The events of plans that reach no refusal, one after another. -/
theorem sequence_steps {ps : List Plan} (h : ∀ p ∈ ps, p.stop = none) :
    (Plan.sequence ps).steps = ps.flatMap Plan.steps := by
  induction ps with
  | nil => rfl
  | cons p ps ih =>
    rw [sequence_cons, followedBy_steps (h p (by simp)), ih fun q hq => h q (by simp [hq]), List.flatMap_cons]

@[simp] theorem emitting_stop (es : List Event) : (Plan.emitting es).stop = none := rfl

@[simp] theorem emitting_steps (es : List Event) : (Plan.emitting es).steps = es.map fun e => { event := e } := rfl

/-! ## Bits of a nibble -/

theorem hiNibble_bit (b : Byte) (i : Nat) : (hiNibble b).getLsbD i = b.getLsbD (i + 4) := by
  simp [hiNibble, BitVec.getLsbD_ushiftRight, Nat.add_comm]

theorem loNibble_bit (b : Byte) (i : Nat) (h : i < 4) : (loNibble b).getLsbD i = b.getLsbD i := by
  have : (0x0F#8).getLsbD i = true := by interval_cases i <;> decide
  simp [loNibble, this]

/-! ## The frame -/

/-- The steps of a frame: RS, the high nibble, a strobe, the low nibble, a strobe, the last event closing the frame (R77). -/
def frameSteps (c : Config) (rs : Level) (b : Byte) : List Micro :=
  [⟨.wr .rs rs, none⟩,
    ⟨.wr .d0 (lv (b.getLsbD 4)), none⟩, ⟨.wr .d1 (lv (b.getLsbD 5)), none⟩,
    ⟨.wr .d2 (lv (b.getLsbD 6)), none⟩, ⟨.wr .d3 (lv (b.getLsbD 7)), none⟩,
    ⟨.wr .en .high, none⟩, ⟨.dly c.tEnMs, none⟩, ⟨.wr .en .low, none⟩,
    ⟨.wr .d0 (lv (b.getLsbD 0)), none⟩, ⟨.wr .d1 (lv (b.getLsbD 1)), none⟩,
    ⟨.wr .d2 (lv (b.getLsbD 2)), none⟩, ⟨.wr .d3 (lv (b.getLsbD 3)), none⟩,
    ⟨.wr .en .high, none⟩, ⟨.dly c.tEnMs, none⟩, ⟨.wr .en .low, some ⟨rs, b⟩⟩]

/-- A frame is its fifteen steps and reaches no refusal. -/
theorem framePlan_eq (c : Config) (rs : Level) (b : Byte) : framePlan c rs b = ⟨frameSteps c rs b, none⟩ := by
  have h : framePlan c rs b = ⟨[⟨.wr .rs rs, none⟩,
      ⟨.wr .d0 (lv ((hiNibble b).getLsbD 0)), none⟩, ⟨.wr .d1 (lv ((hiNibble b).getLsbD 1)), none⟩,
      ⟨.wr .d2 (lv ((hiNibble b).getLsbD 2)), none⟩, ⟨.wr .d3 (lv ((hiNibble b).getLsbD 3)), none⟩,
      ⟨.wr .en .high, none⟩, ⟨.dly c.tEnMs, none⟩, ⟨.wr .en .low, none⟩,
      ⟨.wr .d0 (lv ((loNibble b).getLsbD 0)), none⟩, ⟨.wr .d1 (lv ((loNibble b).getLsbD 1)), none⟩,
      ⟨.wr .d2 (lv ((loNibble b).getLsbD 2)), none⟩, ⟨.wr .d3 (lv ((loNibble b).getLsbD 3)), none⟩,
      ⟨.wr .en .high, none⟩, ⟨.dly c.tEnMs, none⟩, ⟨.wr .en .low, some ⟨rs, b⟩⟩], none⟩ := rfl
  rw [h, hiNibble_bit, hiNibble_bit, hiNibble_bit, hiNibble_bit, loNibble_bit b 0 (by decide),
    loNibble_bit b 1 (by decide), loNibble_bit b 2 (by decide), loNibble_bit b 3 (by decide)]
  rfl

@[simp] theorem framePlan_stop (c : Config) (rs : Level) (b : Byte) : (framePlan c rs b).stop = none := by
  rw [framePlan_eq]

@[simp] theorem framePlan_steps (c : Config) (rs : Level) (b : Byte) : (framePlan c rs b).steps = frameSteps c rs b := by
  rw [framePlan_eq]

/-- The lines after a frame of byte `b` under `rs`: RS at its level, EN low, the data lines at the low nibble, RW as it was
(R77). -/
def linesAfterFrame (L : Lines LineVal) (f : Frame) : Lines LineVal where
  rs := f.rs.val
  rw := L.rw
  en := .low
  d0 := (lv (f.byte.getLsbD 0)).val
  d1 := (lv (f.byte.getLsbD 1)).val
  d2 := (lv (f.byte.getLsbD 2)).val
  d3 := (lv (f.byte.getLsbD 3)).val

/-- The effect of a frame (R77). -/
def sendFrame (s : State) (f : Frame) : State :=
  { s with
    line := linesAfterFrame s.line f
    trace := s.trace ++ (frameSteps s.config f.rs f.byte).map Micro.event
    aptr := aptrAfter f s.aptr }

@[simp] theorem sendFrame_config (s : State) (f : Frame) : (sendFrame s f).config = s.config := rfl
@[simp] theorem sendFrame_configured (s : State) (f : Frame) : (sendFrame s f).configured = s.configured := rfl

/-- Running a frame's steps has the effect of the frame. -/
theorem applyAll_frameSteps (s : State) (rs : Level) (b : Byte) :
    applyAll s (frameSteps s.config rs b) = sendFrame s ⟨rs, b⟩ := by
  refine state_ext (by simp) ?_ ?_ (by simp [sendFrame]) (by simp [sendFrame]) ?_ (by simp [sendFrame]) (by simp [sendFrame])
  · simp [frameSteps, sendFrame, linesAfterFrame, lineSet, Level.val]
  · simp [frameSteps, sendFrame]
  · simp [frameSteps, sendFrame]

/-- The events of a frame can be issued when its six lines are configured (R15). -/
theorem runnable_frameSteps {c : Config} {s : State} (rs : Level) (b : Byte)
    (h : ∀ l, l ≠ .rw → lineGet s.configured l = true) : Runnable (frameSteps c rs b) s := by
  refine runnable_of_configured fun m hm l v he => h l ?_
  rintro rfl
  simp only [frameSteps, List.mem_cons, List.not_mem_nil, or_false] at hm
  rcases hm with rfl | rfl | rfl | rfl | rfl | rfl | rfl | rfl | rfl | rfl | rfl | rfl | rfl | rfl | rfl <;> cases he

/-- The effect of frames one after another. -/
def sendFrames (s : State) (fs : List Frame) : State := fs.foldl sendFrame s

@[simp] theorem sendFrames_config (s : State) (fs : List Frame) : (sendFrames s fs).config = s.config := by
  induction fs generalizing s with
  | nil => rfl
  | cons f fs ih => exact (ih _).trans rfl

@[simp] theorem sendFrames_configured (s : State) (fs : List Frame) : (sendFrames s fs).configured = s.configured := by
  induction fs generalizing s with
  | nil => rfl
  | cons f fs ih => exact (ih _).trans rfl

/-- The steps of frames one after another. -/
def framesSteps (c : Config) (fs : List Frame) : List Micro := fs.flatMap fun f => frameSteps c f.rs f.byte

theorem applyAll_framesSteps (s : State) (fs : List Frame) : applyAll s (framesSteps s.config fs) = sendFrames s fs := by
  induction fs generalizing s with
  | nil => rfl
  | cons f fs ih =>
    rw [framesSteps, List.flatMap_cons, applyAll_append, applyAll_frameSteps]
    exact ih (sendFrame s f)

theorem runnable_framesSteps {c : Config} {s : State} (fs : List Frame)
    (h : ∀ l, l ≠ .rw → lineGet s.configured l = true) : Runnable (framesSteps c fs) s := by
  refine runnable_of_configured fun m hm l v he => ?_
  obtain ⟨f, -, hm⟩ := List.mem_flatMap.mp hm
  refine h l ?_
  rintro rfl
  simp only [frameSteps, List.mem_cons, List.not_mem_nil, or_false] at hm
  rcases hm with rfl | rfl | rfl | rfl | rfl | rfl | rfl | rfl | rfl | rfl | rfl | rfl | rfl | rfl | rfl <;> cases he

/-! ## Which plan an instruction runs -/

/-- Every meaning runs the plan of its instruction. -/
theorem exec_eq_perform (i : Instr) (s : State) : exec i s = perform i (planOf s.config i) s := by
  cases i <;> rfl

/-- The cell of a row outside 0..3 has no address (R60). -/
theorem rowBase_eq_none {y : Byte} : rowBase y = none ↔ 4 ≤ y.toNat := by
  unfold rowBase
  split <;> simp_all
  omega

theorem cellAddress_noRow {x y : Byte} (h : 4 ≤ y.toNat) : cellAddress x y = .noRow := by
  simp [cellAddress, rowBase_eq_none.mpr h]

/-- The frames of an operation that sends frames only (R64): none where it has no such list, that is for `init`, which configures
first, for `transferNibble`, and for an address that does not fit. -/
def framesOf (i : Instr) : Option (List Frame) :=
  match i with
  | .init => none
  | .writeString text => some (text.map fun b => ⟨rsData, b⟩)
  | .writeInt number => some ((dec number.toInt).map fun b => ⟨rsData, b⟩)
  | .clearDisplay => some [⟨rsCmd, clearByte⟩]
  | .gotoxy x y =>
    match cellAddress x y with
    | .noRow => some []
    | .fits a => some [⟨rsCmd, setDdramByte a⟩]
    | .overflow => none
  | .writeCustomChar x y slot =>
    match cellAddress x y with
    | .noRow => some [⟨rsData, slot⟩]
    | .fits a => some [⟨rsCmd, setDdramByte a⟩, ⟨rsData, slot⟩]
    | .overflow => none
  | .clearXY x y =>
    match cellAddress x y with
    | .noRow => some [⟨rsData, chSpace⟩]
    | .fits a => some [⟨rsCmd, setDdramByte a⟩, ⟨rsData, chSpace⟩]
    | .overflow => none
  | .createCustomChar slot data =>
    some (⟨rsCmd, setCgramByte (slotIndex slot)⟩ :: (glyphBytes data).map fun b => ⟨rsData, b⟩)
  | .writeCommand byte => some [⟨rsCmd, byte⟩]
  | .writeData byte => some [⟨rsData, byte⟩]
  | .transferNibble _ _ => none
  | .frameWake33 => some [⟨rsCmd, wake33Byte⟩]
  | .frameWake32 => some [⟨rsCmd, wake32Byte⟩]
  | .frameFuncset => some [⟨rsCmd, funcsetByte⟩]
  | .frameClear => some [⟨rsCmd, clearByte⟩]
  | .frameDispon => some [⟨rsCmd, disponByte⟩]
  | .frameEntry => some [⟨rsCmd, entryByte⟩]
  | .frameSetCgram s => some [⟨rsCmd, setCgramByte s⟩]
  | .frameSetDdram a => some [⟨rsCmd, setDdramByte a⟩]
  | .frameData d => some [⟨rsData, d⟩]

/-- A text's plan is its data frames. -/
theorem writeStringPlan_eq (c : Config) (text : List Byte) :
    writeStringPlan c text = ⟨framesSteps c (text.map fun b => ⟨rsData, b⟩), none⟩ := by
  induction text with
  | nil => rfl
  | cons b text ih =>
    have h : writeStringPlan c (b :: text) = (writeDataPlan c b).followedBy (writeStringPlan c text) := rfl
    rw [h, ih, writeDataPlan, framePlan_eq]
    rfl

/-- An operation that sends frames only has the plan of these frames. -/
theorem planOf_of_framesOf {c : Config} {i : Instr} {fs : List Frame} (h : framesOf i = some fs) :
    planOf c i = ⟨framesSteps c fs, none⟩ := by
  have one (rs : Level) (b : Byte) : framePlan c rs b = ⟨framesSteps c [⟨rs, b⟩], none⟩ := by
    rw [framePlan_eq]
    simp [framesSteps]
  have two (rs rs' : Level) (b b' : Byte) :
      (framePlan c rs b).followedBy (framePlan c rs' b') = ⟨framesSteps c [⟨rs, b⟩, ⟨rs', b'⟩], none⟩ := by
    rw [framePlan_eq, framePlan_eq]
    simp [framesSteps, Plan.followedBy]
  cases i with
  | init => simp [framesOf] at h
  | transferNibble n k => simp [framesOf] at h
  | writeString text =>
    simp only [framesOf, Option.some.injEq] at h
    subst h
    exact writeStringPlan_eq c text
  | writeInt number =>
    simp only [framesOf, Option.some.injEq] at h
    subst h
    exact writeStringPlan_eq c _
  | gotoxy x y =>
    cases hc : cellAddress x y with
    | noRow =>
      simp only [framesOf, hc, Option.some.injEq] at h
      subst h
      simp [planOf, gotoxyPlan, hc, Plan.nothing, framesSteps]
    | fits a =>
      simp only [framesOf, hc, Option.some.injEq] at h
      subst h
      simp only [planOf, gotoxyPlan, hc]
      exact one rsCmd (setDdramByte a)
    | overflow => simp [framesOf, hc] at h
  | writeCustomChar x y slot =>
    cases hc : cellAddress x y with
    | noRow =>
      simp only [framesOf, hc, Option.some.injEq] at h
      subst h
      simp only [planOf, writeCustomCharPlan, gotoxyPlan, hc]
      exact one rsData slot
    | fits a =>
      simp only [framesOf, hc, Option.some.injEq] at h
      subst h
      simp only [planOf, writeCustomCharPlan, gotoxyPlan, hc]
      exact two rsCmd rsData (setDdramByte a) slot
    | overflow => simp [framesOf, hc] at h
  | clearXY x y =>
    cases hc : cellAddress x y with
    | noRow =>
      simp only [framesOf, hc, Option.some.injEq] at h
      subst h
      simp only [planOf, clearXYPlan, gotoxyPlan, hc]
      exact one rsData chSpace
    | fits a =>
      simp only [framesOf, hc, Option.some.injEq] at h
      subst h
      simp only [planOf, clearXYPlan, gotoxyPlan, hc]
      exact two rsCmd rsData (setDdramByte a) chSpace
    | overflow => simp [framesOf, hc] at h
  | createCustomChar slot data =>
    simp only [framesOf, Option.some.injEq] at h
    subst h
    have h1 : planOf c (.createCustomChar slot data) =
        (framePlan c rsCmd (setCgramByte (slotIndex slot))).followedBy (writeStringPlan c (glyphBytes data)) := rfl
    rw [h1, writeStringPlan_eq, framePlan_eq]
    simp [framesSteps, Plan.followedBy]
  | clearDisplay =>
    simp only [framesOf, Option.some.injEq] at h
    subst h
    exact one _ _
  | writeCommand byte =>
    simp only [framesOf, Option.some.injEq] at h
    subst h
    exact one _ _
  | writeData byte =>
    simp only [framesOf, Option.some.injEq] at h
    subst h
    exact one _ _
  | frameWake33 =>
    simp only [framesOf, Option.some.injEq] at h
    subst h
    exact one _ _
  | frameWake32 =>
    simp only [framesOf, Option.some.injEq] at h
    subst h
    exact one _ _
  | frameFuncset =>
    simp only [framesOf, Option.some.injEq] at h
    subst h
    exact one _ _
  | frameClear =>
    simp only [framesOf, Option.some.injEq] at h
    subst h
    exact one _ _
  | frameDispon =>
    simp only [framesOf, Option.some.injEq] at h
    subst h
    exact one _ _
  | frameEntry =>
    simp only [framesOf, Option.some.injEq] at h
    subst h
    exact one _ _
  | frameSetCgram s =>
    simp only [framesOf, Option.some.injEq] at h
    subst h
    exact one _ _
  | frameSetDdram a =>
    simp only [framesOf, Option.some.injEq] at h
    subst h
    exact one _ _
  | frameData d =>
    simp only [framesOf, Option.some.injEq] at h
    subst h
    exact one _ _

/-- The frames of `init` (R65). -/
def initFrames : List Frame :=
  [⟨rsCmd, wake33Byte⟩, ⟨rsCmd, wake32Byte⟩, ⟨rsCmd, funcsetByte⟩, ⟨rsCmd, clearByte⟩, ⟨rsCmd, disponByte⟩, ⟨rsCmd, entryByte⟩]

/-- The steps of `init` before its first frame (R65). -/
def initPrelude : List Micro :=
  [⟨.cfg .rs, none⟩, ⟨.cfg .rw, none⟩, ⟨.cfg .en, none⟩, ⟨.cfg .d0, none⟩, ⟨.cfg .d1, none⟩, ⟨.cfg .d2, none⟩,
    ⟨.cfg .d3, none⟩, ⟨.wr .rw .low, none⟩]

/-- `init` configures the lines, drives RW low and sends six frames (R65). -/
theorem initPlan_eq (c : Config) : initPlan c = ⟨initPrelude ++ framesSteps c initFrames, none⟩ := by
  simp only [initPlan, writeCommandPlan, framePlan_eq]
  rfl

/-- After the prelude of `init` every line is configured. -/
theorem initPrelude_configured (s : State) (l : Line) :
    lineGet (applyAll s initPrelude).configured l = true := by
  cases l <;> simp [initPrelude, lineSet, lineGet]

theorem runnable_initPrelude (s : State) : Runnable initPrelude s := by
  simp [initPrelude, Runnable, Allowed, lineSet, lineGet]

/-- The steps of a nibble transfer with an admitted bit count (R78). -/
def nibbleSteps (c : Config) (nibble : Byte) (count : Nat) : List Micro :=
  ((dataLines.take count).map fun d => ⟨.wr d.2 (lv (nibble.getLsbD d.1)), none⟩) ++
    [⟨.wr .en .high, none⟩, ⟨.dly c.tEnMs, none⟩, ⟨.wr .en .low, none⟩]

/-- A nibble transfer with an admitted bit count reaches no refusal (R78). -/
theorem transferNibblePlan_eq {c : Config} {nibble : Byte} {k : BitVec 3} (h : k.toNat ≤ 4) :
    transferNibblePlan c nibble k = ⟨nibbleSteps c nibble k.toNat, none⟩ := by
  have h' : ¬ 4 < k.toNat := by omega
  simp [transferNibblePlan, h', Plan.followedBy, drivesPlan, strobePlan, Plan.emitting, nibbleSteps]
  rfl

/-- A nibble transfer with another bit count is refused before its first event (R78, R89). -/
theorem transferNibblePlan_refusing {c : Config} {nibble : Byte} {k : BitVec 3} (h : 4 < k.toNat) :
    transferNibblePlan c nibble k = ⟨[], some (.bitCountOutOfRange k)⟩ := by
  simp [transferNibblePlan, h, Plan.refusing]

/-- The four shapes of a plan: frames only, `init`, an admitted nibble transfer, or a refusal before the first event. -/
theorem planOf_shape (c : Config) (i : Instr) :
    (∃ fs, framesOf i = some fs ∧ planOf c i = ⟨framesSteps c fs, none⟩) ∨
      (i = .init ∧ planOf c i = ⟨initPrelude ++ framesSteps c initFrames, none⟩) ∨
      (∃ n k, i = .transferNibble n k ∧ k.toNat ≤ 4 ∧ planOf c i = ⟨nibbleSteps c n k.toNat, none⟩) ∨
      (WellFormed i = false ∧ ∃ r, planOf c i = ⟨[], some r⟩) := by
  cases hf : framesOf i with
  | some fs => exact .inl ⟨fs, rfl, planOf_of_framesOf hf⟩
  | none =>
    refine .inr ?_
    cases i with
    | init => exact .inl ⟨rfl, initPlan_eq c⟩
    | transferNibble n k =>
      by_cases h : k.toNat ≤ 4
      · exact .inr (.inl ⟨n, k, rfl, h, transferNibblePlan_eq h⟩)
      · exact .inr (.inr ⟨by simp [WellFormed, WellFormed.bitCountOk, h], _, transferNibblePlan_refusing (by omega)⟩)
    | gotoxy x y =>
      cases hc : cellAddress x y with
      | overflow =>
        exact .inr (.inr ⟨by simp [WellFormed, WellFormed.cellOk, hc], .ddramAddressOverflow x y, by
          simp [planOf, gotoxyPlan, hc, Plan.refusing]⟩)
      | noRow => simp [framesOf, hc] at hf
      | fits a => simp [framesOf, hc] at hf
    | clearXY x y =>
      cases hc : cellAddress x y with
      | overflow =>
        exact .inr (.inr ⟨by simp [WellFormed, WellFormed.cellOk, hc], .ddramAddressOverflow x y, by
          simp [planOf, clearXYPlan, gotoxyPlan, hc, Plan.refusing, Plan.followedBy]⟩)
      | noRow => simp [framesOf, hc] at hf
      | fits a => simp [framesOf, hc] at hf
    | writeCustomChar x y slot =>
      cases hc : cellAddress x y with
      | overflow =>
        exact .inr (.inr ⟨by simp [WellFormed, WellFormed.cellOk, hc], .ddramAddressOverflow x y, by
          simp [planOf, writeCustomCharPlan, gotoxyPlan, hc, Plan.refusing, Plan.followedBy]⟩)
      | noRow => simp [framesOf, hc] at hf
      | fits a => simp [framesOf, hc] at hf
    | _ => simp [framesOf] at hf

/-- The meaning of an operation that sends frames only, on a ready block with the lines of a frame configured. -/
theorem exec_of_framesOf {i : Instr} {s : State} {fs : List Frame} (h : framesOf i = some fs) (hq : s.seq = .idle)
    (hr : s.refused = none) (hc : fs = [] ∨ ∀ l, l ≠ .rw → lineGet s.configured l = true) :
    exec i s = .next (sendFrames s fs) := by
  rw [exec_eq_perform, planOf_of_framesOf h, perform_eq_next]
  refine ⟨hq, hr, rfl, ?_, (applyAll_framesSteps s fs).symm⟩
  rcases hc with rfl | hc
  · trivial
  · exact runnable_framesSteps fs hc

/-! ## Which events a plan holds -/

/-- A frame drives lines other than RW, and delays by the parameter (R77). -/
theorem framesSteps_event {c : Config} {fs : List Frame} {m : Micro} (h : m ∈ framesSteps c fs) :
    (∃ l v, m.event = .wr l v ∧ l ≠ .rw) ∨ m.event = .dly c.tEnMs := by
  obtain ⟨f, -, h⟩ := List.mem_flatMap.mp h
  simp only [frameSteps, List.mem_cons, List.not_mem_nil, or_false] at h
  rcases h with rfl | rfl | rfl | rfl | rfl | rfl | rfl | rfl | rfl | rfl | rfl | rfl | rfl | rfl | rfl <;> simp

/-- A nibble transfer does the same (R78). -/
theorem nibbleSteps_event {c : Config} {nibble : Byte} {count : Nat} {m : Micro} (h : m ∈ nibbleSteps c nibble count) :
    (∃ l v, m.event = .wr l v ∧ l ≠ .rw) ∨ m.event = .dly c.tEnMs := by
  simp only [nibbleSteps, List.mem_append, List.mem_map] at h
  rcases h with ⟨d, hd, rfl⟩ | h
  · have hd := List.mem_of_mem_take hd
    simp only [dataLines, List.mem_cons, List.not_mem_nil, or_false] at hd
    rcases hd with rfl | rfl | rfl | rfl <;> simp
  · simp only [List.mem_cons, List.not_mem_nil, or_false] at h
    rcases h with rfl | rfl | rfl <;> simp

/-- Every event of a plan configures a line or drives RW low, and then the operation is `init`; or drives another line; or is the
delay of the enable pulse (R13, R15, R16, R91). -/
theorem planOf_event {c : Config} {i : Instr} {m : Micro} (h : m ∈ (planOf c i).steps) :
    (i = .init ∧ ((∃ l, m.event = .cfg l) ∨ m.event = .wr .rw .low)) ∨ (∃ l v, m.event = .wr l v ∧ l ≠ .rw) ∨
      m.event = .dly c.tEnMs := by
  rcases planOf_shape c i with ⟨fs, -, hp⟩ | ⟨rfl, hp⟩ | ⟨n, k, rfl, -, hp⟩ | ⟨-, r, hp⟩ <;> rw [hp] at h
  · exact .inr (framesSteps_event h)
  · rcases List.mem_append.mp h with h | h
    · refine .inl ⟨rfl, ?_⟩
      simp only [initPrelude, List.mem_cons, List.not_mem_nil, or_false] at h
      rcases h with rfl | rfl | rfl | rfl | rfl | rfl | rfl | rfl <;> simp
    · exact .inr (framesSteps_event h)
  · exact .inr (nibbleSteps_event h)
  · cases h

end Sys2Proof.Laws
end

