-- ==== Sys2Proof/Laws/Step.lean ====
section
/-! SUPPORT. What one step can do, said once. -/

namespace Sys2Proof.Laws

open Sys2Proof.Machine

/-- An instruction ends in a next state exactly when the block was ready and its plan reaches no refusal; the state is then that
of its event list. -/
theorem exec_eq_next {i : Instr} {s t : State} :
    exec i s = .next t ↔
      s.seq = .idle ∧ s.refused = none ∧ (planOf s.config i).stop = none ∧ Runnable (planOf s.config i).steps s ∧
        t = applyAll s (planOf s.config i).steps := by
  rw [exec_eq_perform, perform_eq_next]

/-- A step that gives a next state does one of three things: it waits for a request, runs the next one, or emits the next event
of the running operation (R20, R46, R95). -/
theorem step_next_cases {s t : State} (h : step s = .next t) :
    s.refused = none ∧
      ((s.seq = .idle ∧ s.port = [] ∧ t = s) ∨
        (∃ w rest i, s.seq = .idle ∧ s.port = w :: rest ∧ decode w = .ok i ∧ exec i (s.withPort rest) = .next t) ∨
        (∃ i k, s.seq = .busy i k ∧
          ((∃ m, (planOf s.config i).steps[k]? = some m ∧ Allowed m.event s ∧
              t = (applyMicro s m).withSeq (seqAt i (planOf s.config i) (k + 1))) ∨
            ((planOf s.config i).steps[k]? = none ∧ t = s.withSeq .idle)))) := by
  unfold step stepWith at h
  cases hr : s.refused with
  | some r => simp [hr] at h
  | none =>
    simp only [hr] at h
    refine ⟨rfl, ?_⟩
    cases hq : s.seq with
    | busy i k =>
      simp only [hq, sequenceStep] at h
      refine .inr (.inr ⟨i, k, rfl, ?_⟩)
      cases hm : (planOf s.config i).steps[k]? with
      | some m =>
        simp only [hm, andThen_eq_next, emit_eq_next] at h
        obtain ⟨u, ⟨ha, rfl⟩, h⟩ := h
        exact .inl ⟨m, rfl, ha, by injection h with h; exact h.symm⟩
      | none =>
        simp only [hm] at h
        cases hs : (planOf s.config i).stop with
        | none =>
          simp only [hs] at h
          exact .inr ⟨rfl, by injection h with h; exact h.symm⟩
        | some r => simp [hs, refuse] at h
    | idle =>
      simp only [hq, fetch] at h
      cases hp : s.port with
      | nil =>
        simp only [hp] at h
        exact .inl ⟨rfl, rfl, by injection h with h; exact h.symm⟩
      | cons w rest =>
        simp only [hp] at h
        cases hd : decode w with
        | ok i =>
          simp only [hd] at h
          exact .inr (.inl ⟨w, rest, i, rfl, rfl, hd, h⟩)
        | error e =>
          cases e
          simp [hd, refuse] at h

end Sys2Proof.Laws
end

