-- ==== Sys2Proof/Laws/Views.lean ====
section
/-! SUPPORT. What the observer's functions give on one trace after another. -/

namespace Sys2Proof.Laws

open Sys2Proof.Machine

theorem levelsAfter_append (tr es : List Event) : levelsAfter (tr ++ es) = es.foldl follow (levelsAfter tr) := by
  simp [levelsAfter]

theorem levelsAfter_snoc (tr : List Event) (e : Event) : levelsAfter (tr ++ [e]) = follow (levelsAfter tr) e := by
  simp [levelsAfter]

theorem latchedFrom_append (b : Lines LineVal) (es es' : List Event) :
    latchedFrom b (es ++ es') = latchedFrom b es ++ latchedFrom (es.foldl follow b) es' := by
  induction es generalizing b with
  | nil => rfl
  | cons e es ih =>
    simp only [List.cons_append, latchedFrom, ih, List.foldl]
    split <;> simp

/-- The samples of a longer trace are those of its beginning and those of the rest, from the levels in between (R42). -/
theorem latched_append (tr es : List Event) : latched (tr ++ es) = latched tr ++ latchedFrom (levelsAfter tr) es :=
  latchedFrom_append _ _ _

/-- Samples that pair up, followed by samples that pair up (R43). -/
theorem pairSamples_append {a b : List Sample} {fs gs : List Frame} (ha : pairSamples a = some fs)
    (hb : pairSamples b = some gs) : pairSamples (a ++ b) = some (fs ++ gs) := by
  induction a using pairSamples.induct generalizing fs with
  | case1 =>
    simp only [pairSamples, Option.some.injEq] at ha
    subst ha
    simpa using hb
  | case2 => simp [pairSamples] at ha
  | case3 hi lo rest f fs' hp hj ih =>
    simp only [pairSamples, hj, hp, Option.some.injEq] at ha
    subst ha
    simp [pairSamples, hj, ih hp]
  | case4 hi lo rest h ih =>
    rw [pairSamples] at ha
    split at ha
    · exact absurd ‹_› (h _ _ ‹_›)
    · cases ha

theorem delayTotal_append (a b : List Event) : delayTotal (a ++ b) = delayTotal a + delayTotal b := by
  induction a with
  | nil => simp [delayTotal]
  | cons e a ih => cases e <;> simp [delayTotal, ih, Nat.add_assoc]

end Sys2Proof.Laws
end

