-- ==== Sys2Proof/Machine/Flags.lean ====
section
/-! DEFINITION. The block has no status flag, condition code, error flag or busy flag (10_state.md R21). What the host sees of it
from outside are the two handshake wires of the request port (30_encoding.md R48), computed here from the state. -/

namespace Sys2Proof.Machine

/-- `req_ready`: `seq = Idle` seen from outside (R21, R48). -/
def reqReady (s : State) : Bool := decide (s.seq = .idle)

/-- `req_valid`: the host presents a request (R48). -/
def reqValid (s : State) : Bool := !s.port.isEmpty

end Sys2Proof.Machine
end

