-- ==== Sys2Proof/Tests/Slice0.lean ====
section
/-! SUPPORT. Tests of single steps, their expected results taken from 95_test_vectors.md (the vector is named at each), the smoke
test of WellFormed, the decoding of words written out from 30_encoding.md, and for every statement with hypotheses a witness that
meets them. -/

namespace Sys2Proof.Tests

open Sys2Proof Sys2Proof.Machine Sys2Proof.Safety Sys2Proof.Claims

set_option Elab.async false

/-! ## Helpers -/

/-- The state an outcome leaves. -/
def stateOf (r : Result) : State :=
  match r with
  | .next s => s
  | .fault _ => State.reset
  | .refused (.refuse _ s) => s
  | .refused (.notModelled _) => State.reset

/-- The outcome is a next state. -/
def isNext (r : Result) : Bool :=
  match r with
  | .next _ => true
  | .fault _ => false
  | .refused _ => false

/-- The reason of a refusal. -/
def reasonOf (r : Result) : Option Reason :=
  match r with
  | .next _ => none
  | .fault _ => none
  | .refused (.refuse e _) => some e
  | .refused (.notModelled _) => none

theorem next_stateOf {r : Result} (h : isNext r = true) : r = .next (stateOf r) := by
  cases r with
  | next s => rfl
  | fault e => exact nomatch e
  | refused e => simp [isNext] at h

/-- The state the vectors call "after init", with the trace starting empty. -/
def afterInit : State :=
  { State.reset with
    line := ⟨.low, .low, .low, .low, .high, .high, .low⟩
    configured := ⟨true, true, true, true, true, true, true⟩
    aptr := .ddram }

/-- A state whose trace accounts for its lines: configured, RW low, nothing else driven. -/
def recorded : State :=
  { State.reset with
    line := ⟨.x, .low, .x, .x, .x, .x, .x⟩
    configured := ⟨true, true, true, true, true, true, true⟩
    trace := [.cfg .rs, .cfg .rw, .cfg .en, .cfg .d0, .cfg .d1, .cfg .d2, .cfg .d3, .wr .rw .low] }

/-- A state whose trace accounts for levels on every line that is sampled, with one sample latched. -/
def sampled : State :=
  { State.reset with
    line := ⟨.low, .low, .low, .low, .low, .low, .low⟩
    configured := ⟨true, true, true, true, true, true, true⟩
    trace := [.cfg .rs, .cfg .rw, .cfg .en, .cfg .d0, .cfg .d1, .cfg .d2, .cfg .d3, .wr .rw .low, .wr .rs .low, .wr .d0 .low,
      .wr .d1 .low, .wr .d2 .low, .wr .d3 .low, .wr .en .high, .dly 1, .wr .en .low] }

/-- A block in the middle of `clearDisplay`. -/
def running : State := { afterInit with seq := .busy .clearDisplay 14, port := [.req { op := 3#4 }] }

/-- A refused block. -/
def stopped : State := { afterInit with refused := some .overlappingRequest }

/-- `afterInit` with a request at the port. -/
def asked (w : PortWord) : State := { afterInit with port := [w] }

/-- What an operation does to `afterInit`. -/
def out (i : Instr) : State := stateOf (exec i afterInit)

/-- `NT(h)`, written out from the table of 95_test_vectors.md for the digits the tests use. -/
def nt2 : List Event :=
  [.wr .d0 .low, .wr .d1 .high, .wr .d2 .low, .wr .d3 .low, .wr .en .high, .dly 1, .wr .en .low]
def nt8 : List Event :=
  [.wr .d0 .low, .wr .d1 .low, .wr .d2 .low, .wr .d3 .high, .wr .en .high, .dly 1, .wr .en .low]
def nt4 : List Event :=
  [.wr .d0 .low, .wr .d1 .low, .wr .d2 .high, .wr .d3 .low, .wr .en .high, .dly 1, .wr .en .low]
def nt1 : List Event :=
  [.wr .d0 .high, .wr .d1 .low, .wr .d2 .low, .wr .d3 .low, .wr .en .high, .dly 1, .wr .en .low]
def nt3 : List Event :=
  [.wr .d0 .high, .wr .d1 .high, .wr .d2 .low, .wr .d3 .low, .wr .en .high, .dly 1, .wr .en .low]

theorem ready_afterInit : Ready afterInit := ⟨rfl, rfl⟩
theorem lines_afterInit : FrameLinesConfigured afterInit := fun l _ => by cases l <;> rfl
theorem all_afterInit : AllConfigured afterInit := fun l => by cases l <;> rfl
theorem inv_recorded : RecordInv recorded := by
  refine ⟨by unfold LinesFollowTrace; decide, fun l => by cases l <;> decide, fun l v _ => by cases l <;> rfl, ?_⟩
  unfold WriteModeHeld
  decide

theorem inv_sampled : SamplingInv { sampled with port := [.req { op := 3#4 }] } := by
  refine ⟨⟨by unfold LinesFollowTrace; decide, fun l => by cases l <;> decide, fun l v _ => by cases l <;> rfl, ?_⟩, ?_, ?_⟩
  · unfold WriteModeHeld
    decide
  · unfold SampleDefined
    decide
  · unfold SampleDefined
    decide

/-! ## WellFormed refuses what R78 and R55 refuse -/

theorem test_wf_bitCount_five : WellFormed (.transferNibble 0x01#8 5#3) = false := by decide
theorem test_wf_bitCount_four : WellFormed (.transferNibble 0xFF#8 4#3) = true := by decide
theorem test_wf_gotoxy_overflow : WellFormed (.gotoxy 0x80#8 0#8) = false := by decide
theorem test_wf_gotoxy_last : WellFormed (.gotoxy 0x7F#8 0#8) = true := by decide
theorem test_wf_clearXY_overflow : WellFormed (.clearXY 0x2C#8 3#8) = false := by decide
theorem test_wf_writeCustomChar_overflow : WellFormed (.writeCustomChar 0x40#8 1#8 0#8) = false := by decide
theorem test_wf_gotoxy_no_row : WellFormed (.gotoxy 0xFF#8 4#8) = true := by decide

/-! ## Decoding words written out from R49, R50 (programs P1 to P4 of 95_test_vectors.md) and R54 -/

theorem test_decode_init : decode (.req { op := 0b0000#4 }) = .ok .init := rfl
theorem test_decode_writeString :
    decode (.req { op := 0b0001#4, text := [0x48#8, 0x69#8] }) = .ok (.writeString [0x48#8, 0x69#8]) := rfl
theorem test_decode_writeInt : decode (.req { op := 0b0010#4, number := 0xFFFFFFD6#32 }) = .ok (.writeInt (-42#32)) := rfl
theorem test_decode_clearDisplay : decode (.req { op := 0b0011#4 }) = .ok .clearDisplay := rfl
theorem test_decode_gotoxy : decode (.req { op := 0b0100#4, x := 0x04#8, y := 0x02#8 }) = .ok (.gotoxy 4#8 2#8) := rfl
theorem test_decode_writeCustomChar :
    decode (.req { op := 0b0101#4, x := 0x03#8, y := 0x01#8, slot := 0x02#8 }) = .ok (.writeCustomChar 3#8 1#8 2#8) := rfl
theorem test_decode_clearXY : decode (.req { op := 0b0110#4, x := 0x13#8, y := 0x03#8 }) = .ok (.clearXY 19#8 3#8) := rfl
theorem test_decode_createCustomChar :
    decode (.req { op := 0b0111#4, slot := 1#8, data := ⟨0x00#8, 0x0A#8, 0x1F#8, 0x1F#8, 0x0E#8, 0x04#8, 0x00#8, 0x00#8⟩ }) =
      .ok (.createCustomChar 1#8 ⟨0x00#8, 0x0A#8, 0x1F#8, 0x1F#8, 0x0E#8, 0x04#8, 0x00#8, 0x00#8⟩) := rfl
theorem test_decode_writeCommand : decode (.req { op := 0b1000#4, byte := 0x28#8 }) = .ok (.writeCommand 0x28#8) := rfl
theorem test_decode_writeData : decode (.req { op := 0b1001#4, byte := 0x41#8 }) = .ok (.writeData 0x41#8) := rfl
theorem test_decode_transferNibble :
    decode (.req { op := 0b1010#4, nibble := 0x01#8, bitCount := 5#3 }) = .ok (.transferNibble 1#8 5#3) := rfl
theorem test_decode_reserved : decode (.req { op := 0b1011#4 }) = .error (.reservedRequest 11#4) := rfl
theorem test_decode_wake33 : decode (.frame9 0b000110011#9) = .ok .frameWake33 := rfl
theorem test_decode_wake32 : decode (.frame9 0b000110010#9) = .ok .frameWake32 := rfl
theorem test_decode_funcset : decode (.frame9 0b000101000#9) = .ok .frameFuncset := rfl
theorem test_decode_clear : decode (.frame9 0b000000001#9) = .ok .frameClear := rfl
theorem test_decode_dispon : decode (.frame9 0b000001100#9) = .ok .frameDispon := rfl
theorem test_decode_entry : decode (.frame9 0b000000110#9) = .ok .frameEntry := rfl
theorem test_decode_setCgram : decode (.frame9 0b001110000#9) = .ok (.frameSetCgram 6#3) := rfl
theorem test_decode_setDdram : decode (.frame9 0b011010001#9) = .ok (.frameSetDdram 0x51#7) := rfl
theorem test_decode_data : decode (.frame9 0b110100101#9) = .ok (.frameData 0xA5#8) := rfl
/-- A command byte that no row of R54 lists (0x00, V12; 0x41, a CGRAM address inside a glyph). -/
theorem test_decode_unlisted : decode (.frame9 0b000000000#9) = .ok (.writeCommand 0x00#8) ∧
    decode (.frame9 0b001000001#9) = .ok (.writeCommand 0x41#8) := ⟨rfl, rfl⟩

/-! ## The operations -/

/-- V20: 98 events, and the lines at the end. -/
theorem test_init_count : (stateOf (step (State.reset.withFetchWord 8 0))).trace.length = 98 := by decide +kernel
theorem test_init_frames :
    frames (stateOf (exec .init State.reset)).trace =
      some [⟨.low, 0x33#8⟩, ⟨.low, 0x32#8⟩, ⟨.low, 0x28#8⟩, ⟨.low, 0x01#8⟩, ⟨.low, 0x0C#8⟩, ⟨.low, 0x06#8⟩] := by
  decide +kernel

/-- V1. -/
theorem test_transferNibble_four :
    (out (.transferNibble 0x03#8 4#3)).trace =
      [.wr .d0 .high, .wr .d1 .high, .wr .d2 .low, .wr .d3 .low, .wr .en .high, .dly 1, .wr .en .low] := by decide
/-- V5: D2 and D3 keep what `init` left. -/
theorem test_transferNibble_two :
    (out (.transferNibble 0x05#8 2#3)).trace = [.wr .d0 .high, .wr .d1 .low, .wr .en .high, .dly 1, .wr .en .low] ∧
      (out (.transferNibble 0x05#8 2#3)).line = ⟨.low, .low, .low, .high, .low, .high, .low⟩ := by decide

/-- V10. -/
theorem test_writeCommand : (out (.writeCommand 0x28#8)).trace = .wr .rs .low :: (nt2 ++ nt8) := by decide +kernel
/-- V13: the ghost moves to DDRAM. -/
theorem test_writeCommand_ghost :
    (stateOf (exec (.writeCommand 0xFF#8) { afterInit with aptr := .cgram })).aptr = .ddram := by decide +kernel
/-- V11. -/
theorem test_writeData : (out (.writeData 0x41#8)).trace = .wr .rs .high :: (nt4 ++ nt1) := by decide +kernel

/-- P1, step 3: "Hi". -/
theorem test_writeString :
    (latchedFrom afterInit.line (out (.writeString [0x48#8, 0x69#8])).trace).map Sample.nibble =
        [some 0x4#4, some 0x8#4, some 0x6#4, some 0x9#4] ∧
      (out (.writeString [0x48#8, 0x69#8])).trace.length = 30 ∧
      (out (.writeString [0x48#8, 0x69#8])).line = ⟨.high, .low, .low, .high, .low, .low, .high⟩ := by decide +kernel

/-- P3, step 3: -42 is "-42". -/
theorem test_writeInt_minus42 :
    (latchedFrom afterInit.line (out (.writeInt 0xFFFFFFD6#32)).trace).map Sample.nibble =
      [some 0x2#4, some 0xD#4, some 0x3#4, some 0x4#4, some 0x3#4, some 0x2#4] := by decide +kernel
/-- V35: the most negative number. -/
theorem test_dec_most_negative :
    dec (0x80000000#32).toInt =
      [0x2D#8, 0x32#8, 0x31#8, 0x34#8, 0x37#8, 0x34#8, 0x38#8, 0x33#8, 0x36#8, 0x34#8, 0x38#8] := by decide

/-- V60. -/
theorem test_clearDisplay :
    (out .clearDisplay).trace =
      [.wr .rs .low, .wr .d0 .low, .wr .d1 .low, .wr .d2 .low, .wr .d3 .low, .wr .en .high, .dly 1, .wr .en .low,
        .wr .d0 .high, .wr .d1 .low, .wr .d2 .low, .wr .d3 .low, .wr .en .high, .dly 1, .wr .en .low] := by
  decide +kernel

/-- V44: base and column are added (C1), 0x98 and not 0x94. -/
theorem test_gotoxy_adds : (out (.gotoxy 4#8 2#8)).line = ⟨.low, .low, .low, .low, .low, .low, .high⟩ := by decide +kernel
/-- V48: no event on a row outside 0..3. -/
theorem test_gotoxy_no_row : out (.gotoxy 200#8 4#8) = afterInit := by decide +kernel
/-- V47: 0xE7 and then the space. -/
theorem test_clearXY :
    (latchedFrom afterInit.line (out (.clearXY 19#8 3#8)).trace).map Sample.nibble =
      [some 0xE#4, some 0x7#4, some 0x2#4, some 0x0#4] := by decide +kernel
/-- V68: the data frame alone. -/
theorem test_clearXY_no_row : (out (.clearXY 0#8 7#8)).trace.length = 15 := by decide +kernel
/-- V50: 0xC3 and then the slot. -/
theorem test_writeCustomChar :
    (latchedFrom afterInit.line (out (.writeCustomChar 3#8 1#8 1#8)).trace).map Sample.nibble =
      [some 0xC#4, some 0x3#4, some 0x0#4, some 0x1#4] := by decide +kernel
/-- V51: all 8 bits of the slot are sent. -/
theorem test_writeCustomChar_unmasked :
    (latchedFrom afterInit.line (out (.writeCustomChar 0#8 0#8 0x41#8)).trace).map Sample.nibble =
      [some 0x8#4, some 0x0#4, some 0x4#4, some 0x1#4] := by decide +kernel
/-- V52. -/
theorem test_createCustomChar :
    (latchedFrom afterInit.line
        (out (.createCustomChar 1#8 ⟨0x00#8, 0x0A#8, 0x1F#8, 0x1F#8, 0x0E#8, 0x04#8, 0x00#8, 0x00#8⟩)).trace).map Sample.nibble =
      [4#4, 8#4, 0#4, 0#4, 0#4, 10#4, 1#4, 15#4, 1#4, 15#4, 0#4, 14#4, 0#4, 4#4, 0#4, 0#4, 0#4, 0#4].map some := by
  decide +kernel
/-- V53: slot 255 wraps to 7. -/
theorem test_createCustomChar_wraps : setCgramByte (slotIndex 255#8) = 0x78#8 ∧ setCgramByte (slotIndex 8#8) = 0x40#8 := by
  decide

/-! ## The frame rows -/

theorem test_frame_wake33 : (out .frameWake33).trace = .wr .rs .low :: (nt3 ++ nt3) := by decide +kernel
theorem test_frame_wake32 : (out .frameWake32).trace = .wr .rs .low :: (nt3 ++ nt2) := by decide +kernel
theorem test_frame_funcset : (out .frameFuncset).trace = .wr .rs .low :: (nt2 ++ nt8) := by decide +kernel
theorem test_frame_clear : (out .frameClear).trace.drop 8 = nt1 := by decide +kernel
theorem test_frame_dispon : (out .frameDispon).line = ⟨.low, .low, .low, .low, .low, .high, .high⟩ := by decide +kernel
theorem test_frame_entry : (out .frameEntry).line = ⟨.low, .low, .low, .low, .high, .high, .low⟩ := by decide +kernel
theorem test_frame_setCgram : (out (.frameSetCgram 1#3)).trace = .wr .rs .low :: (nt4 ++ nt8) ∧
    (out (.frameSetCgram 1#3)).aptr = .cgram := by decide +kernel
theorem test_frame_setDdram : (out (.frameSetDdram 0x14#7)).line = ⟨.low, .low, .low, .low, .low, .high, .low⟩ := by
  decide +kernel
theorem test_frame_data : (out (.frameData 0x41#8)).trace = .wr .rs .high :: (nt4 ++ nt1) := by decide +kernel

/-! ## Refusals -/

/-- V8 and V16, P5 a: nothing is emitted. -/
theorem test_unconfigured :
    reasonOf (exec (.transferNibble 3#8 4#3) State.reset) = some (.unconfiguredLine .d0) ∧
      reasonOf (exec (.writeCommand 0x28#8) State.reset) = some (.unconfiguredLine .rs) ∧
      (stateOf (exec (.writeString [0x41#8]) State.reset)).trace = [] := by decide
/-- V49 and V70. -/
theorem test_overflow :
    reasonOf (exec (.gotoxy 0x6C#8 2#8) afterInit) = some (.ddramAddressOverflow 0x6C#8 2#8) ∧
      reasonOf (exec (.clearXY 0x2C#8 3#8) afterInit) = some (.ddramAddressOverflow 0x2C#8 3#8) ∧
      isNext (exec (.gotoxy 0x6B#8 2#8) afterInit) = true := by decide +kernel
/-- V7. -/
theorem test_bitCount : reasonOf (exec (.transferNibble 1#8 5#3) afterInit) = some (.bitCountOutOfRange 5#3) := by decide
/-- P5 d. -/
theorem test_reserved : reasonOf (step (asked (.req { op := 11#4 }))) = some (.reservedRequest 11#4) := by decide
/-- P5 e, at the port the second request waits; let in, it is refused. -/
theorem test_overlap : reasonOf (exec (.writeString [0x41#8]) running) = some .overlappingRequest ∧
    (stateOf (step running)).port.length = 1 := by decide +kernel

/-! ## Witnesses: the hypotheses of the statements can be met -/

theorem witness_EveryFrameWordSendsItsOwnFrame : Ready afterInit ∧ FrameLinesConfigured afterInit :=
  ⟨ready_afterInit, lines_afterInit⟩

theorem witness_RequestCodesSelectTheirOperation : ∀ k : BitVec 4, k.toNat ≤ 10 → ∃ r : Request, r.op = k :=
  fun k _ => ⟨{ op := k }, rfl⟩

theorem witness_FrameRowsDoNotOverlap :
    ∀ j : Fin 9, frameRows[j].fits frameRows[j].pattern = true := by decide

/-- The reserved codes at both ends. -/
theorem witness_ReservedCodesAreRefused :
    Ready (asked (.req { op := 11#4 })) ∧ (asked (.req { op := 11#4 })).port = [.req { op := 11#4 }] ∧ 11 ≤ (11#4).toNat ∧
      Ready (asked (.req { op := 15#4 })) ∧ 11 ≤ (15#4).toNat := ⟨⟨rfl, rfl⟩, rfl, by decide, ⟨rfl, rfl⟩, by decide⟩

theorem witness_StepRunsTheDecodedInstruction :
    Ready (asked (.req { op := 3#4 })) ∧ (asked (.req { op := 3#4 })).port = [.req { op := 3#4 }] ∧
      decode (.req { op := 3#4 }) = .ok .clearDisplay := ⟨⟨rfl, rfl⟩, rfl, rfl⟩

theorem witness_IdleBlockWithoutRequestWaits : Ready State.reset ∧ State.reset.port = [] := ⟨⟨rfl, rfl⟩, rfl⟩

theorem witness_RequestsWaitWhileBusy :
    running.seq = .busy .clearDisplay 14 ∧ step running = .next (stateOf (step running)) :=
  ⟨rfl, next_stateOf (by decide +kernel)⟩

theorem witness_OverlappingOperationIsRefused : running.refused = none ∧ running.seq = .busy .clearDisplay 14 := ⟨rfl, rfl⟩

theorem witness_RefusedStateStaysRefused : stopped.refused = some .overlappingRequest := rfl

/-- A run that completes, and one that is refused. -/
theorem witness_AtomicStepEqualsEventSteps :
    (Ready (asked (.req { op := 3#4 })) ∧
      step (asked (.req { op := 3#4 })) = .next (stateOf (step (asked (.req { op := 3#4 }))))) ∧
    (Ready (asked (.req { op := 4#4, x := 0x80#8 })) ∧
      step (asked (.req { op := 4#4, x := 0x80#8 })) =
        .refused (.refuse (.ddramAddressOverflow 0x80#8 0#8) (stateOf (step (asked (.req { op := 4#4, x := 0x80#8 })))))) :=
  ⟨⟨⟨rfl, rfl⟩, next_stateOf (by decide +kernel)⟩, ⟨rfl, rfl⟩, rfl⟩

/-- At the last event of an operation the bound is 2 steps, at the first 16. -/
theorem witness_EveryRunningOperationEnds :
    running.seq = .busy .clearDisplay 14 ∧ (planOf running.config .clearDisplay).events.length - 14 + 1 = 2 := by
  decide +kernel

theorem witness_WaitingRequestsRunInOrder :
    Ready afterInit ∧ runAll [.clearDisplay, .gotoxy 1#8 1#8] afterInit =
      .next (stateOf (runAll [.clearDisplay, .gotoxy 1#8 1#8] afterInit)) :=
  ⟨ready_afterInit, next_stateOf (by decide +kernel)⟩

theorem witness_StepKeepsRecordInv :
    RecordInv { recorded with port := [.req { op := 3#4 }] } ∧
      isNext (step { recorded with port := [.req { op := 3#4 }] }) = true := ⟨inv_recorded, by decide +kernel⟩

theorem witness_TraceOnlyGrows :
    isNext (step (asked (.req { op := 3#4 }))) = true ∧
      reasonOf (step (asked (.req { op := 11#4 }))) = some (.reservedRequest 11#4) := by decide +kernel

/-- A frame and a lone nibble transfer that complete; the hypothesis `exec i s = .next t` of the statements about every
operation. -/
theorem witness_OperationsLeaveConfigurationAndPort :
    exec .clearDisplay afterInit = .next (out .clearDisplay) ∧
      exec (.transferNibble 3#8 4#3) afterInit = .next (out (.transferNibble 3#8 4#3)) :=
  ⟨next_stateOf (by decide +kernel), rfl⟩

theorem witness_GhostInfluencesNothing : exec .clearDisplay afterInit = .next (out .clearDisplay) :=
  next_stateOf (by decide +kernel)

theorem witness_EventListDependsOnOperandsOnly :
    afterInit.config = { tEnMs := 1 } ∧ exec .clearDisplay afterInit = .next (out .clearDisplay) :=
  ⟨rfl, next_stateOf (by decide +kernel)⟩

/-- An operation other than `init`, and `init`. -/
theorem witness_OnlyInitConfiguresAndDrivesRw :
    (exec .clearDisplay afterInit = .next (out .clearDisplay) ∧ Instr.clearDisplay ≠ .init) ∧
      exec .init State.reset = .next (stateOf (exec .init State.reset)) :=
  ⟨⟨next_stateOf (by decide +kernel), by decide⟩, next_stateOf (by decide +kernel)⟩

/-- An operation that emits something, and one that does not. -/
theorem witness_EnableIsLowAfterEveryOperation :
    (exec .clearDisplay afterInit = .next (out .clearDisplay) ∧ (out .clearDisplay).trace ≠ afterInit.trace) ∧
      exec (.gotoxy 0#8 4#8) afterInit = .next (out (.gotoxy 0#8 4#8)) ∧ (out (.gotoxy 0#8 4#8)).trace = afterInit.trace :=
  ⟨⟨next_stateOf (by decide +kernel), by decide +kernel⟩, next_stateOf (by decide +kernel), by decide +kernel⟩

theorem witness_DrivenLinesStayDriven :
    RecordInv { recorded with port := [.req { op := 3#4 }] } ∧
      isNext (step { recorded with port := [.req { op := 3#4 }] }) = true ∧ lineGet recorded.line .rw ≠ .x :=
  ⟨inv_recorded, by decide +kernel, by decide⟩

/-- Event 5 of a frame raises EN, event 6 is the delay, event 7 drops EN. -/
theorem witness_StrobeIsThreeEventsInARow :
    exec .clearDisplay afterInit = .next (out .clearDisplay) ∧ (out .clearDisplay).trace[5]? = some (.wr .en .high) ∧
      (out .clearDisplay).trace[6]? = some (.dly 1) ∧ (out .clearDisplay).trace[7]? = some (.wr .en .low) :=
  ⟨next_stateOf (by decide +kernel), by decide +kernel, by decide +kernel, by decide +kernel⟩

/-- The ghost at CGRAM: before, and through each of the three commands, at both ends of the range. -/
theorem witness_CgramIsSelectedOnlyByItsCommands :
    (stateOf (exec (.writeData 0#8) { afterInit with aptr := .cgram })).aptr = .cgram ∧
      (out (.createCustomChar 8#8 ⟨0#8, 0#8, 0#8, 0#8, 0#8, 0#8, 0#8, 0#8⟩)).aptr = .cgram ∧
      (out (.frameSetCgram 0#3)).aptr = .cgram ∧ (out (.writeCommand 0x40#8)).aptr = .cgram ∧
      (out (.writeCommand 0x7F#8)).aptr = .cgram := by decide +kernel

theorem witness_DelayIsOncePerNibbleTransfer : exec (.gotoxy 0#8 3#8) afterInit = .next (out (.gotoxy 0#8 3#8)) :=
  next_stateOf (by decide +kernel)

/-- Bit count 4 with all lines configured, and bit count 0 with EN alone. -/
theorem witness_NibbleImageOnDataLines :
    (Ready afterInit ∧ (4#3).toNat ≤ 4 ∧ afterInit.configured.en = true ∧ afterInit.configured.d0 = true ∧
      afterInit.configured.d1 = true ∧ afterInit.configured.d2 = true ∧ afterInit.configured.d3 = true) ∧
    (Ready (State.reset.setConfigured .en) ∧ (State.reset.setConfigured .en).configured.en = true ∧ ¬ 1 ≤ (0#3).toNat) := by
  refine ⟨⟨ready_afterInit, ?_⟩, ⟨rfl, rfl⟩, ?_⟩ <;> decide

theorem witness_BitCountAboveFourIsRefused : Ready State.reset ∧ 4 < (5#3).toNat ∧ 4 < (7#3).toNat :=
  ⟨⟨rfl, rfl⟩, by decide, by decide⟩

theorem witness_FrameIsFifteenEvents : Ready afterInit ∧ FrameLinesConfigured afterInit := ⟨ready_afterInit, lines_afterInit⟩

theorem witness_HighNibbleGoesFirst : Ready afterInit ∧ FrameLinesConfigured afterInit := ⟨ready_afterInit, lines_afterInit⟩

theorem witness_FrameRowsSendTheirByte : Ready afterInit ∧ FrameLinesConfigured afterInit := ⟨ready_afterInit, lines_afterInit⟩

/-- From reset, and again on a configured block. -/
theorem witness_InitResult : Ready State.reset ∧ Ready afterInit := ⟨⟨rfl, rfl⟩, ready_afterInit⟩

/-- The empty text on a block with no line configured, and a text on a configured one. -/
theorem witness_WriteStringSendsEachCharacter :
    (Ready State.reset ∧ (([] : List Byte) ≠ [] → FrameLinesConfigured State.reset)) ∧
      (Ready afterInit ∧ ([0x41#8] ≠ [] → FrameLinesConfigured afterInit)) :=
  ⟨⟨⟨rfl, rfl⟩, fun h => absurd rfl h⟩, ready_afterInit, fun _ => lines_afterInit⟩

theorem witness_WriteIntSendsDecimalText : Ready afterInit ∧ FrameLinesConfigured afterInit :=
  ⟨ready_afterInit, lines_afterInit⟩

/-- The clauses at their ends: 9 and 10, 0 and -1. -/
theorem witness_DecimalTextFollowsItsEquations :
    digits 9 = [0x39#8] ∧ digits 10 = [0x31#8, 0x30#8] ∧ dec 0 = [0x30#8] ∧ dec (-1) = [0x2D#8, 0x31#8] := by decide

/-- A number of each sign, and the two ends of the 32-bit range. -/
theorem witness_DecimalTextIsCanonical :
    dec 7 = [0x37#8] ∧ dec (-10) = [0x2D#8, 0x31#8, 0x30#8] ∧ (dec 2147483647).length = 10 ∧
      (dec (-2147483648)).length = 11 := by decide

theorem witness_ClearDisplayResult : Ready afterInit ∧ FrameLinesConfigured afterInit := ⟨ready_afterInit, lines_afterInit⟩

/-- The last column of each row (V49). -/
theorem witness_GotoxySendsBasePlusColumn :
    Ready afterInit ∧ FrameLinesConfigured afterInit ∧ base 0#8 + (0x7F#8).toNat ≤ 0x7F ∧ base 1#8 + (0x3F#8).toNat ≤ 0x7F ∧
      base 2#8 + (0x6B#8).toNat ≤ 0x7F ∧ base 3#8 + (0x2B#8).toNat ≤ 0x7F :=
  ⟨ready_afterInit, lines_afterInit, by decide, by decide, by decide, by decide⟩

/-- Rows 4 and 255; `gotoxy` also with no line configured. -/
theorem witness_InvalidRowsAreDropped :
    Ready State.reset ∧ Ready afterInit ∧ FrameLinesConfigured afterInit ∧ 4 ≤ (4#8).toNat ∧ 4 ≤ (255#8).toNat :=
  ⟨⟨rfl, rfl⟩, ready_afterInit, lines_afterInit, by decide, by decide⟩

theorem witness_CellWritesAddressThenWrite :
    Ready afterInit ∧ FrameLinesConfigured afterInit ∧ (3#8).toNat ≤ 3 ∧ base 3#8 + (0x2B#8).toNat ≤ 0x7F :=
  ⟨ready_afterInit, lines_afterInit, by decide, by decide⟩

/-- The first column past the end of each row (V49). -/
theorem witness_AddressOverflowIsRefused :
    Ready afterInit ∧ 0x7F < base 0#8 + (0x80#8).toNat ∧ 0x7F < base 1#8 + (0x40#8).toNat ∧
      0x7F < base 2#8 + (0x6C#8).toNat ∧ 0x7F < base 3#8 + (0x2C#8).toNat :=
  ⟨ready_afterInit, by decide, by decide, by decide, by decide⟩

theorem witness_CreateCustomCharResult : Ready afterInit ∧ FrameLinesConfigured afterInit :=
  ⟨ready_afterInit, lines_afterInit⟩

/-- V4: 0xF3 and 0x03 agree in the low four bits; both run. -/
theorem witness_OperandsWrapSilently :
    (∀ i, i < (4#3).toNat → (0xF3#8).getLsbD i = (0x03#8).getLsbD i) ∧
      exec (.transferNibble 0xF3#8 4#3) afterInit = .next (out (.transferNibble 0xF3#8 4#3)) ∧
      exec (.createCustomChar 9#8 ⟨0#8, 0#8, 0#8, 0#8, 0#8, 0#8, 0#8, 0#8⟩) afterInit =
        .next (out (.createCustomChar 9#8 ⟨0#8, 0#8, 0#8, 0#8, 0#8, 0#8, 0#8, 0#8⟩)) :=
  ⟨by decide, rfl, next_stateOf (by decide +kernel)⟩

/-- Both sides of an expansion run. -/
theorem witness_PseudoOperationsExpand :
    isNext (exec (.clearXY 0#8 3#8) afterInit) = true ∧
      isNext (runAll [.gotoxy 0#8 3#8, .writeData 0x20#8] afterInit) = true := by decide +kernel

/-- A configured block, and `init` on one that is not. -/
theorem witness_WellFormedOperationsComplete :
    (WellFormed (.gotoxy 0x7F#8 0#8) = true ∧ Ready afterInit ∧ AllConfigured afterInit) ∧
      (WellFormed .init = true ∧ Ready State.reset) :=
  ⟨⟨by decide, ready_afterInit, all_afterInit⟩, by decide, rfl, rfl⟩

/-- `afterInit` with one line not configured. -/
def without (l : Line) : State := { afterInit with configured := lineSet afterInit.configured l false }

/-- The first unconfigured line of a frame, RS, then each data line, then EN behind configured data lines, and EN of a strobe
alone: the events before it, and the refusal. -/
theorem witness_UnconfiguredLineIsRefused :
    (operationEvents 1 (.writeCommand 0x28#8) = [] ++ .wr .rs .low :: (nt2 ++ nt8) ∧
      reasonOf (exec (.writeCommand 0x28#8) (without .rs)) = some (.unconfiguredLine .rs)) ∧
    (∀ l ∈ [Line.d0, .d1, .d2, .d3, .en], reasonOf (exec (.writeCommand 0x28#8) (without l)) = some (.unconfiguredLine l)) ∧
    (∃ es rest, operationEvents 1 (.writeCommand 0x28#8) = es ++ .wr .en .high :: rest ∧
      (∀ l' v', .wr l' v' ∈ es → lineGet (without .en).configured l' = true) ∧
      lineGet (without .en).configured .en = false ∧ Ready (without .en)) ∧
    reasonOf (exec (.transferNibble 0#8 0#3) State.reset) = some (.unconfiguredLine .en) := by
  refine ⟨by decide +kernel, by decide +kernel, ⟨.wr .rs .low :: nt2.take 4, nt2.drop 5 ++ nt8, by decide +kernel, ?_, rfl, rfl, rfl⟩,
    by decide +kernel⟩
  intro l' v' h
  cases l' <;> simp_all [nt2, without, afterInit, lineSet, lineGet]

/-- `init` at reset, and a frame on a block with RW low. -/
theorem witness_FramesReassemble :
    (frames State.reset.trace = some [] ∧ isNext (exec .init State.reset) = true ∧ keepsPairing .init = true) ∧
      (RecordInv recorded ∧ recorded.line.rw = .low ∧ keepsPairing .clearDisplay = true ∧ frames recorded.trace = some [] ∧
        exec .clearDisplay recorded = .next (stateOf (exec .clearDisplay recorded))) :=
  ⟨by decide +kernel, inv_recorded, rfl, rfl, rfl, next_stateOf (by decide +kernel)⟩

/-- A state after `init` meets the invariant, and a step from it completes. -/
theorem witness_SamplesAreDefinedAfterInit :
    runAll [.init] State.reset = .next (stateOf (runAll [.init] State.reset)) ∧
      (let s := { sampled with port := [.req { op := 3#4 }] }
       SamplingInv s ∧ isNext (step s) = true) :=
  ⟨next_stateOf (by decide +kernel), inv_sampled, by decide +kernel⟩

/-! ## The platform and the calling contexts -/

/-- Seven pins on three banks, wired in index order. -/
def board : Platform where
  binding := ⟨⟨0, 1⟩, ⟨0, 2⟩, ⟨1, 0⟩, ⟨2, 4⟩, ⟨2, 5⟩, ⟨2, 6⟩, ⟨2, 7⟩⟩
  wiring := ⟨⟨2, 4⟩, ⟨2, 5⟩, ⟨2, 6⟩, ⟨2, 7⟩⟩
  cols := .c16
  rows := .r2
  clocks := [0, 1, 2]

/-- The same with D4 and D7 of the controller exchanged. -/
def crossed : Platform := { board with wiring := ⟨⟨2, 7⟩, ⟨2, 5⟩, ⟨2, 6⟩, ⟨2, 4⟩⟩ }

/-- R22 and U11: the crossed board is not legal, and the low nibble of 0x01 arrives as 0x8. -/
theorem test_wiring : bindingLegal board = true ∧ bindingLegal crossed = false ∧ nbanks board = 3 ∧
    received crossed (out (.writeCommand 0x01#8)).line = ⟨.low, .low, .low, .high⟩ := by decide +kernel

theorem witness_DataLinesReachTheirControllerPins :
    bindingLegal board = true ∧ (boundPins crossed).Nodup ∧ crossed.wiring.d4 = lineGet crossed.binding .d3 := by decide

/-- `init` on a block with nothing configured, and the others on a configured one. -/
theorem witness_OperationsMakeTheirPlatformCalls :
    Ready State.reset ∧ Ready afterInit ∧ FrameLinesConfigured afterInit ∧ keepsPairing (.gotoxy 0#8 0#8) = true ∧
      WellFormed (.gotoxy 0#8 0#8) = true ∧ (4#3).toNat ≤ 4 ∧ (0#3).toNat ≤ 4 :=
  ⟨⟨rfl, rfl⟩, ready_afterInit, lines_afterInit, rfl, by decide, by decide, by decide⟩

/-- A block in the middle of each kind of operation: handed a text, handed a glyph, handed nothing. -/
theorem witness_SerialisationViolationsAreRefused :
    ({ afterInit with seq := .busy (.writeString [0x41#8]) 3 } : State).refused = none ∧
      ({ afterInit with seq := .busy (.createCustomChar 0#8 ⟨0#8, 0#8, 0#8, 0#8, 0#8, 0#8, 0#8, 0#8⟩) 3 } : State).refused = none ∧
      running.refused = none ∧ running.seq = .busy .clearDisplay 14 := ⟨rfl, rfl, rfl, rfl⟩

/-- U12: a text changed after its first event; P5 e: a second context let in. -/
theorem test_contexts :
    reasonOf (takeTurns [.context (.start (.writeString [0x41#8])), .block, .context .changeBuffer] afterInit) =
        some .overlappingRequest ∧
      reasonOf (takeTurns [.context (.start .init), .block, .context (.start (.writeString [0x41#8]))] State.reset) =
        some .overlappingRequest ∧
      isNext (takeTurns [.context (.start .clearDisplay), .block, .context .changeBuffer, .block] afterInit) = true := by
  decide +kernel

end Sys2Proof.Tests
end

section
/-! SUPPORT. A frame is two nibble transfers, the high nibble first (20_memory.md R33, 30_encoding.md R52). -/

namespace Sys2Proof.Proofs

open Sys2Proof.Machine Sys2Proof.Safety Sys2Proof.Claims Sys2Proof.Laws

/-! ## The nibbles of a byte -/

/-- The high nibble is the field `b[7:4]` (R52). -/
theorem hiNibble_eq_field (b : Byte) : hiNibble b = (b.extractLsb' 4 4).setWidth 8 := by
  apply BitVec.eq_of_toNat_eq
  have hb : b.toNat < 256 := b.isLt
  simp only [hiNibble, BitVec.toNat_ushiftRight, BitVec.toNat_setWidth, BitVec.extractLsb'_toNat,
    Nat.shiftRight_eq_div_pow]
  omega

/-- The low nibble is the field `b[3:0]` (R52): masking with `0x0F` keeps the remainder modulo 16. -/
theorem loNibble_eq_field (b : Byte) : loNibble b = (b.extractLsb' 0 4).setWidth 8 := by
  apply BitVec.eq_of_toNat_eq
  have mask : b.toNat &&& 15 = b.toNat % 16 := Nat.and_two_pow_sub_one_eq_mod b.toNat 4
  simp only [loNibble, BitVec.toNat_and, BitVec.toNat_ofNat, BitVec.toNat_setWidth, BitVec.extractLsb'_toNat,
    Nat.reducePow, Nat.reduceMod, Nat.shiftRight_zero, mask]
  omega

/-! ## The events of a frame -/

/-- `lv` is the level the statements use for a bit (R53). -/
theorem lv_eq_bitLevel (bit : Bool) : lv bit = bitLevel bit := by
  cases bit <;> rfl

/-- A frame drives RS and then makes two whole nibble transfers, the high nibble first (R33, R77). -/
theorem frameSteps_events (c : Config) (rs : Level) (b : Byte) :
    (frameSteps c rs b).map Micro.event =
      .wr .rs rs :: (nibbleEvents c.tEnMs (hiNibble b) ++ nibbleEvents c.tEnMs (loNibble b)) := by
  simp only [nibbleEvents, hiNibble_bit, loNibble_bit, ← lv_eq_bitLevel, Nat.reduceLT]
  rfl

/-- An instruction of one frame completes on a ready block and emits RS and the frame's two nibble transfers. -/
theorem exec_oneFrame_trace {i : Instr} {s : State} {rs : Level} {b : Byte} (hf : framesOf i = some [⟨rs, b⟩])
    (hs : Ready s) (hc : FrameLinesConfigured s) :
    ∃ t, exec i s = .next t ∧
      t.trace = s.trace ++ [.wr .rs rs] ++ nibbleEvents s.config.tEnMs (hiNibble b) ++
        nibbleEvents s.config.tEnMs (loNibble b) := by
  obtain ⟨hidle, hgood⟩ := hs
  have hrun : exec i s = .next (sendFrame s ⟨rs, b⟩) := exec_of_framesOf hf hidle hgood (.inr hc)
  exact ⟨_, hrun, by simp [sendFrame, frameSteps_events]⟩

/-- Settles O34: a command and a data byte are each one frame, and a frame is the transfers of the two fields of its byte. -/
theorem highNibbleGoesFirst : Obligations.HighNibbleGoesFirst := by
  intro s b hs hc
  have command := exec_oneFrame_trace (i := .writeCommand b) rfl hs hc
  have data := exec_oneFrame_trace (i := .writeData b) rfl hs hc
  exact ⟨command, data, hiNibble_eq_field b, loNibble_eq_field b⟩

end Sys2Proof.Proofs
end

section
/-! SUPPORT. The frames an operation sends, in the terms of the statements: what a list of frames adds to the trace, and where
it leaves the lines and the ghost (10_state.md R26, 44_framing.md R77). -/

namespace Sys2Proof.Proofs

open Sys2Proof.Machine Sys2Proof.Safety Sys2Proof.Claims Sys2Proof.Laws

/-! ## One frame -/

theorem lv_val (bit : Bool) : (lv bit).val = bitVal bit := by
  cases bit <;> rfl

/-- The steps of a frame emit the fifteen events of the table of R77. -/
theorem frameSteps_frameEvents (c : Config) (f : Frame) :
    (frameSteps c f.rs f.byte).map Micro.event = frameEvents c.tEnMs f := by
  simp [frameSteps, frameEvents, lv_eq_bitLevel]

theorem linesAfterFrame_eq (L : Lines LineVal) (f : Frame) : linesAfterFrame L f = linesAfter L f := by
  simp [linesAfterFrame, linesAfter, lv_val]

/-- The bit tests of the model are the address ranges of R26: bit 7 from 0x80 up, and bit 6 from 0x40 up where bit 7 is
clear. -/
theorem aptrAfter_eq_ghostAfter (f : Frame) (a : Aptr) : aptrAfter f a = ghostAfter f a := by
  have hb : f.byte.toNat < 256 := f.byte.isLt
  have clear : f.byte = clearByte ↔ f.byte.toNat = 0x01 := BitVec.toNat_inj.symm
  have bit7 : f.byte.getLsbD 7 = true ↔ 0x80 ≤ f.byte.toNat := by
    simp only [BitVec.getLsbD, Nat.testBit_eq_decide_div_mod_eq, decide_eq_true_eq, Nat.reducePow]
    omega
  have bit6 : f.byte.toNat < 0x80 → (f.byte.getLsbD 6 = true ↔ 0x40 ≤ f.byte.toNat) := by
    simp only [BitVec.getLsbD, Nat.testBit_eq_decide_div_mod_eq, decide_eq_true_eq, Nat.reducePow]
    omega
  by_cases h80 : 0x80 ≤ f.byte.toNat
  · simp only [aptrAfter, ghostAfter, clear, bit7, h80, if_true]
  · simp only [aptrAfter, ghostAfter, clear, bit7, bit6 (by omega)]

/-! ## Frames one after another -/

/-- The model's frames leave the state that the statements give. -/
theorem sendFrames_eq_sent (s : State) (fs : List Frame) : sendFrames s fs = sent s fs := by
  induction fs generalizing s with
  | nil => rfl
  | cons f fs ih =>
    have one : sendFrame s f = sent s [f] := by
      simp only [sendFrame, sent, frameSteps_frameEvents, linesAfterFrame_eq, aptrAfter_eq_ghostAfter]
    calc sendFrames s (f :: fs) = sendFrames (sendFrame s f) fs := rfl
      _ = sent (sendFrame s f) fs := ih _
      _ = sent s (f :: fs) := by rw [one]; rfl

/-- An operation that sends frames only completes on a ready block whose frame lines are configured, and has sent them. -/
theorem exec_sends {i : Instr} {s : State} {fs : List Frame} (hf : framesOf i = some fs) (hs : Ready s)
    (hc : FrameLinesConfigured s) : exec i s = .next (sent s fs) := by
  obtain ⟨hidle, hgood⟩ := hs
  rw [exec_of_framesOf hf hidle hgood (.inr hc), sendFrames_eq_sent]

theorem sent_trace (s : State) (fs : List Frame) :
    (sent s fs).trace = s.trace ++ fs.flatMap (frameEvents s.config.tEnMs) := by
  induction fs generalizing s with
  | nil => simp [sent]
  | cons f fs ih => simp [sent, ih]

theorem sent_append (s : State) (fs gs : List Frame) : sent s (fs ++ gs) = sent (sent s fs) gs := by
  induction fs generalizing s with
  | nil => rfl
  | cons f fs ih => exact ih _

/-- The last frame alone decides the lines it drives (R77). -/
theorem sent_snoc_line (s : State) (fs : List Frame) (f : Frame) :
    (sent s (fs ++ [f])).line = linesAfter (sent s fs).line f := by
  rw [sent_append]
  rfl

/-- Fifteen events for each frame (R77). -/
theorem frames_length (T : Nat) (fs : List Frame) : (fs.flatMap (frameEvents T)).length = 15 * fs.length := by
  induction fs with
  | nil => rfl
  | cons f fs ih =>
    have one : (frameEvents T f).length = 15 := rfl
    rw [List.flatMap_cons, List.length_append, ih, one, List.length_cons]
    omega

/-- One delay for each nibble transfer, so two for each frame (R77, R105). -/
theorem frames_delayTotal (T : Nat) (fs : List Frame) : delayTotal (fs.flatMap (frameEvents T)) = 2 * fs.length * T := by
  induction fs with
  | nil => simp [delayTotal]
  | cons f fs ih =>
    have one : delayTotal (frameEvents T f) = T + T := rfl
    rw [List.flatMap_cons, delayTotal_append, ih, one, List.length_cons]
    ring

/-- Data frames leave the ghost alone (R26). -/
theorem sent_data_aptr (s : State) (bs : List Byte) : (sent s (bs.map fun b => ⟨rsData, b⟩)).aptr = s.aptr := by
  induction bs generalizing s with
  | nil => rfl
  | cons b bs ih => exact ih _

end Sys2Proof.Proofs
end

section
/-! SUPPORT. The glyph slot in its command byte, and the operand bits an operation does not read (30_encoding.md R56, R61;
43_glyph.md R74; 45_nibble_strobe.md R82). -/

namespace Sys2Proof.Proofs

open Sys2Proof.Machine Sys2Proof.Safety Sys2Proof.Claims Sys2Proof.Laws

/-! ## The slot and its command byte -/

theorem slotMask_toNat (slot : Byte) : (slot &&& 0x07#8).toNat = slot.toNat % 8 :=
  Nat.and_two_pow_sub_one_eq_mod slot.toNat 3

/-- The slot index is the slot modulo 8 (R61). -/
theorem slotIndex_toNat (slot : Byte) : (slotIndex slot).toNat = slot.toNat % 8 := by
  simp only [slotIndex, BitVec.toNat_setWidth, slotMask_toNat]
  omega

/-- The command byte in the words of R56, `0x40 | ((slot & 0x07) << 3)`. -/
theorem setCgramByte_slotIndex (slot : Byte) :
    setCgramByte (slotIndex slot) = 0x40#8 ||| ((slot &&& 0x07#8) <<< 3) := by
  have field : (slotIndex slot).setWidth 8 = slot &&& 0x07#8 := by
    apply BitVec.eq_of_toNat_eq
    rw [BitVec.toNat_setWidth, slotIndex_toNat, slotMask_toNat]
    omega
  rw [setCgramByte, field]

/-- The eight command bytes run from 0x40 in steps of 8 (R56). -/
theorem setCgramByte_eq (k : BitVec 3) : setCgramByte k = BitVec.ofNat 8 (0x40 + 8 * k.toNat) := by
  revert k
  decide

/-- A set-CGRAM-address command moves the ghost to CGRAM: its byte lies from 0x40 up to 0x78 (R26, R56). -/
theorem ghostAfter_setCgram (k : BitVec 3) (a : Aptr) : ghostAfter ⟨rsCmd, setCgramByte k⟩ a = .cgram := by
  have range : (setCgramByte k).toNat = 0x40 + 8 * k.toNat := by
    rw [setCgramByte_eq, BitVec.toNat_ofNat]
    omega
  have h1 : ¬ 0x40 + 8 * k.toNat = 0x01 := by omega
  have h2 : ¬ 0x80 ≤ 0x40 + 8 * k.toNat := by omega
  simp [ghostAfter, range, h1, h2]

/-! ## The frames of `createCustomChar` -/

/-- The frames before the one of `data[7]` (R74): the CGRAM address and seven bytes. -/
def glyphFramesButLast (slot : Byte) (g : Glyph) : List Frame :=
  ⟨rsCmd, setCgramByte (slotIndex slot)⟩ ::
    [g.row0, g.row1, g.row2, g.row3, g.row4, g.row5, g.row6].map (Frame.mk rsData)

/-- `createCustomChar` sends those and the frame of `data[7]`. -/
theorem framesOf_createCustomChar (slot : Byte) (g : Glyph) :
    framesOf (.createCustomChar slot g) = some (glyphFramesButLast slot g ++ [⟨rsData, g.row7⟩]) := rfl

/-- Settles O46: the operation sends nine frames, whose last gives the lines and whose first gives the ghost. -/
theorem createCustomCharResult : Obligations.CreateCustomCharResult := by
  intro s slot g hs hc
  have run : exec (.createCustomChar slot g) s = .next (sent s (glyphFramesButLast slot g ++ [⟨rsData, g.row7⟩])) :=
    exec_sends (framesOf_createCustomChar slot g) hs hc
  have lines := sent_snoc_line s (glyphFramesButLast slot g) ⟨rsData, g.row7⟩
  have nine : (glyphFramesButLast slot g ++ [Frame.mk rsData g.row7]).length = 9 := rfl
  refine ⟨_, run, ?_, ?_, ?_, ?_, congrArg Lines.rs lines, congrArg Lines.d0 lines, congrArg Lines.d1 lines,
    congrArg Lines.d2 lines, congrArg Lines.d3 lines, ?_⟩
  · rw [← setCgramByte_slotIndex]
    rfl
  · rw [← setCgramByte_slotIndex, setCgramByte_eq, slotIndex_toNat]
  · rw [sent_trace, List.length_append, frames_length, nine]
  · rw [sent_trace, delayTotal_append, frames_delayTotal, nine]
  · exact (sent_data_aptr _ (glyphBytes g)).trans (ghostAfter_setCgram (slotIndex slot) s.aptr)

/-! ## Operands that differ only in bits that are not read -/

/-- The meaning of an instruction is its plan: two instructions with one plan complete together, in one state. -/
theorem exec_next_iff_of_planOf_eq {i j : Instr} {s t : State} (h : planOf s.config i = planOf s.config j) :
    exec i s = .next t ↔ exec j s = .next t := by
  rw [exec_eq_next, exec_eq_next, h]

/-- A slot and its low three bits select one slot (R61). -/
theorem slotIndex_mod (slot : Byte) : slotIndex (BitVec.ofNat 8 (slot.toNat % 8)) = slotIndex slot := by
  apply BitVec.eq_of_toNat_eq
  rw [slotIndex_toNat, slotIndex_toNat, BitVec.toNat_ofNat]
  omega

/-- The first `count` data lines have the indices below `count` (R34). -/
theorem index_lt_of_mem_take {d : Nat × Line} {count : Nat} (h : d ∈ dataLines.take count) : d.1 < count := by
  have hi : d.1 ∈ (dataLines.take count).map Prod.fst := List.mem_map_of_mem h
  have indices : dataLines.map Prod.fst = List.range 4 := rfl
  rw [List.map_take, indices, List.take_range, List.mem_range] at hi
  omega

/-- A nibble transfer reads the low `bitCount` bits of its operand only (R53, R82). -/
theorem transferNibblePlan_congr (c : Config) {n m : Byte} {k : BitVec 3}
    (h : ∀ i, i < k.toNat → n.getLsbD i = m.getLsbD i) : transferNibblePlan c n k = transferNibblePlan c m k := by
  have drives : drivesPlan n k.toNat = drivesPlan m k.toNat :=
    congrArg Plan.emitting (List.map_congr_left fun d hd => by rw [h d.1 (index_lt_of_mem_take hd)])
  rw [transferNibblePlan, transferNibblePlan, drives]

/-- Settles O47: in both cases the bits that are not read leave the plan as it is. -/
theorem operandsWrapSilently : Obligations.OperandsWrapSilently := by
  refine ⟨fun s t slot g => ?_, fun s t n m k h => ?_⟩
  · exact exec_next_iff_of_planOf_eq (by simp only [planOf, createCustomCharPlan, slotIndex_mod])
  · exact exec_next_iff_of_planOf_eq (transferNibblePlan_congr s.config h)

end Sys2Proof.Proofs
end

section
/-! SUPPORT. What the controller latches of a nibble transfer and of a frame (20_memory.md R42, 44_framing.md R77). -/

namespace Sys2Proof.Proofs

open Sys2Proof.Machine Sys2Proof.Safety Sys2Proof.Claims Sys2Proof.Laws

/-! ## One nibble transfer -/

@[simp] theorem bitLevel_val (bit : Bool) : (bitLevel bit).val = bitVal bit := by
  rw [← lv_eq_bitLevel, lv_val]

/-- What a whole nibble transfer shows at its falling edge: RS and RW as they stood, and the low four bits of `n` (R42, R78). -/
def nibbleSample (L : Lines LineVal) (n : Byte) : Sample :=
  ⟨L.rs, L.rw, bitVal (n.getLsbD 3), bitVal (n.getLsbD 2), bitVal (n.getLsbD 1), bitVal (n.getLsbD 0)⟩

/-- The lines after a whole nibble transfer: RS and RW as they stood, EN low, `D[i]` at bit `i` (R78). -/
theorem foldl_follow_nibbleEvents (L : Lines LineVal) (T : Nat) (n : Byte) :
    (nibbleEvents T n).foldl follow L =
      ⟨L.rs, L.rw, .low, bitVal (n.getLsbD 0), bitVal (n.getLsbD 1), bitVal (n.getLsbD 2), bitVal (n.getLsbD 3)⟩ := by
  simp only [nibbleEvents, List.foldl, follow, lineSet, bitLevel_val]
  rfl

/-- The drive of another line than EN is no edge: nothing is latched (R42). -/
theorem latchedFrom_wr_cons {l : Line} (hl : l ≠ .en) (L : Lines LineVal) (v : Level) (es : List Event) :
    latchedFrom L (.wr l v :: es) = latchedFrom (lineSet L l v.val) es := by
  simp [latchedFrom, isFallingEdge, follow, hl]

/-- The strobe latches the lines as they stand, once, whatever EN was before (R42, R79). -/
theorem latchedFrom_strobe (L : Lines LineVal) (T : Nat) :
    latchedFrom L [.wr .en .high, .dly T, .wr .en .low] = [sampleOf L] := by
  simp [latchedFrom, isFallingEdge, follow, lineSet, Level.val, sampleOf]

/-- A nibble transfer latches one sample: its four drives are no edges, and the strobe is one. -/
theorem latchedFrom_nibbleEvents (L : Lines LineVal) (T : Nat) (n : Byte) :
    latchedFrom L (nibbleEvents T n) = [nibbleSample L n] := by
  rw [nibbleEvents, latchedFrom_wr_cons (by decide), latchedFrom_wr_cons (by decide), latchedFrom_wr_cons (by decide),
    latchedFrom_wr_cons (by decide), latchedFrom_strobe]
  simp only [lineSet, sampleOf, nibbleSample, bitLevel_val]

/-! ## One frame -/

/-- The fifteen events of a frame are the drive of RS and two nibble transfers (R33, R77). -/
theorem frameEvents_eq_nibbles (c : Config) (f : Frame) :
    frameEvents c.tEnMs f =
      .wr .rs f.rs :: (nibbleEvents c.tEnMs (hiNibble f.byte) ++ nibbleEvents c.tEnMs (loNibble f.byte)) := by
  rw [← frameSteps_frameEvents, frameSteps_events]

/-- A frame latches its high nibble and then its low nibble, both under the level of RS that it drives first (R77). -/
theorem latchedFrom_frameEvents (L : Lines LineVal) (c : Config) (f : Frame) :
    latchedFrom L (frameEvents c.tEnMs f) =
      [nibbleSample { L with rs := f.rs.val } (hiNibble f.byte), nibbleSample { L with rs := f.rs.val } (loNibble f.byte)] := by
  rw [frameEvents_eq_nibbles, latchedFrom_wr_cons (by decide), latchedFrom_append, latchedFrom_nibbleEvents,
    latchedFrom_nibbleEvents, foldl_follow_nibbleEvents]
  rfl

/-- Settles O33: a command and a data byte are each one frame sent, and a frame latches the two nibbles of its byte. -/
theorem frameIsFifteenEvents : Obligations.FrameIsFifteenEvents := by
  intro s b hs hc
  refine ⟨exec_sends rfl hs hc, exec_sends rfl hs hc, fun rs => ?_⟩
  rw [latchedFrom_frameEvents]
  simp only [nibbleSample, hiNibble_bit, loNibble_bit, Nat.reduceLT, Nat.reduceAdd]

end Sys2Proof.Proofs
end

section
/-! SUPPORT. The words of the port: the encoder's word decodes to its instruction, the request codes, and the rows of the frame
table (30_encoding.md R49, R50, R51, R54). -/

namespace Sys2Proof.Proofs

open Sys2Proof.Machine Sys2Proof.Safety Sys2Proof.Claims Sys2Proof.Laws

/-- Settles O1, instruction by instruction; only the three rows of R54 with a field need more than evaluation. -/
theorem decodeOfEncodeIsIdentity : Obligations.DecodeOfEncodeIsIdentity := by
  intro i
  cases i with
  | init => exact RoundTrip.init
  | writeString text => exact RoundTrip.writeString text
  | writeInt number => exact RoundTrip.writeInt number
  | clearDisplay => exact RoundTrip.clearDisplay
  | gotoxy x y => exact RoundTrip.gotoxy x y
  | writeCustomChar x y slot => exact RoundTrip.writeCustomChar x y slot
  | clearXY x y => exact RoundTrip.clearXY x y
  | createCustomChar slot data => exact RoundTrip.createCustomChar slot data
  | writeCommand byte => exact RoundTrip.writeCommand byte
  | writeData byte => exact RoundTrip.writeData byte
  | transferNibble nibble bitCount => exact RoundTrip.transferNibble nibble bitCount
  | frameWake33 => exact RoundTrip.frameWake33
  | frameWake32 => exact RoundTrip.frameWake32
  | frameFuncset => exact RoundTrip.frameFuncset
  | frameClear => exact RoundTrip.frameClear
  | frameDispon => exact RoundTrip.frameDispon
  | frameEntry => exact RoundTrip.frameEntry
  | frameSetCgram k => exact RoundTrip.frameSetCgram k
  | frameSetDdram a => exact RoundTrip.frameSetDdram a
  | frameData d => exact RoundTrip.frameData d

/-! ## Requests -/

/-- A request decodes by its code alone, with the ports that the code names (R49, R50). -/
theorem decode_req_of_op {r : Request} {code : BitVec 4} (h : r.op = code) :
    decode (.req r) = decodeRequest { r with op := code } := by
  subst h
  rfl

/-- Settles O3: with its code put in, a request evaluates to its operation. -/
theorem requestCodesSelectTheirOperation : Obligations.RequestCodesSelectTheirOperation := by
  intro r
  refine ⟨?_, ?_, ?_, ?_, ?_, ?_, ?_, ?_, ?_, ?_, ?_⟩ <;> exact decode_req_of_op

/-- Settles O5, by evaluating the decoder on the eight words. -/
theorem tableWordsDecodeToTheirRow : Obligations.TableWordsDecodeToTheirRow :=
  ⟨rfl, rfl, rfl, rfl, rfl, rfl, rfl, rfl⟩

/-! ## The rows of the frame table -/

theorem fits_iff {row : FrameRow} {w : BitVec 9} : row.fits w = true ↔ w &&& row.mask = row.pattern :=
  decide_eq_true_iff

/-- Two rows that fit one word agree on the bits that both fix. -/
theorem pattern_agree_of_fits {p q : FrameRow} {w : BitVec 9} (hp : p.fits w = true) (hq : q.fits w = true) :
    p.pattern &&& q.mask = q.pattern &&& p.mask := by
  rw [← fits_iff.mp hp, ← fits_iff.mp hq, BitVec.and_assoc, BitVec.and_assoc, BitVec.and_comm p.mask]

/-- Settles O4: any two rows of the table differ in a bit that both fix. -/
theorem frameRowsDoNotOverlap : Obligations.FrameRowsDoNotOverlap := by
  have distinct : ∀ j k : Fin 9,
      frameRows[j].pattern &&& frameRows[k].mask = frameRows[k].pattern &&& frameRows[j].mask → j = k := by decide
  exact fun w j k hj hk => distinct j k (pattern_agree_of_fits hj hk)

end Sys2Proof.Proofs
end

section
/-! SUPPORT. What an idle, a busy and a refused block make of the next word and of a context's action (10_state.md R10, R20;
20_memory.md R46; 30_encoding.md R48, R59; 70_reset_and_hazards.md R102). -/

namespace Sys2Proof.Proofs

open Sys2Proof.Machine Sys2Proof.Safety Sys2Proof.Claims Sys2Proof.Laws

/-! ## The step of a ready block, in both of its forms -/

theorem stepWith_of_refused (run : Instr → State → Result) {s : State} {r : Reason} (h : s.refused = some r) :
    stepWith run s = .refused (.refuse r s) := by
  simp [stepWith, h]

/-- A ready block runs the instruction of the word that stands first at the port, and the other words stay (R48). -/
theorem stepWith_of_word (run : Instr → State → Result) {s : State} {w : PortWord} {rest : List PortWord} {i : Instr}
    (hs : Ready s) (hp : s.port = w :: rest) (hd : decode w = .ok i) : stepWith run s = run i (s.withPort rest) := by
  obtain ⟨hidle, hgood⟩ := hs
  simp [stepWith, hgood, hidle, fetch, hp, hd]

/-- A busy block takes the next event of its operation, whatever runs accepted operations (R46). -/
theorem stepWith_of_busy (run : Instr → State → Result) {s : State} {i : Instr} {k : Nat} (hq : s.seq = .busy i k)
    (hgood : s.refused = none) : stepWith run s = sequenceStep i k s := by
  simp [stepWith, hgood, hq]

/-- The codes above the eleven of the table select nothing (R59). -/
theorem decodeRequest_of_reserved {r : Request} (h : 11 ≤ r.op.toNat) :
    decodeRequest r = .error (.reservedRequest r.op) := by
  unfold decodeRequest
  split
  case h_12 => rfl
  all_goals omega

theorem stepWith_of_reserved (run : Instr → State → Result) {s : State} {r : Request} {rest : List PortWord}
    (hs : Ready s) (hp : s.port = .req r :: rest) (hcode : 11 ≤ r.op.toNat) :
    stepWith run s = refuse (.reservedRequest r.op) s := by
  obtain ⟨hidle, hgood⟩ := hs
  simp [stepWith, hgood, hidle, fetch, hp, decode, decodeRequest_of_reserved hcode]

/-- Settles O6: a reserved code decodes to no instruction, and the port is not touched. -/
theorem reservedCodesAreRefused : Obligations.ReservedCodesAreRefused :=
  fun _ _ _ hs hp hcode => stepWith_of_reserved exec hs hp hcode

/-- Settles O7: the atomic form of the step runs the instruction by `exec`. -/
theorem stepRunsTheDecodedInstruction : Obligations.StepRunsTheDecodedInstruction :=
  fun _ _ _ _ hs hp hd => stepWith_of_word exec hs hp hd

/-- Settles O8: there is no word to fetch. -/
theorem idleBlockWithoutRequestWaits : Obligations.IdleBlockWithoutRequestWaits := by
  rintro s ⟨hidle, hgood⟩ hp
  simp [step, stepWith, hgood, hidle, fetch, hp]

/-! ## What is refused -/

/-- Settles O10: every instruction is run by `perform`, which accepts nothing while the block is busy. -/
theorem overlappingOperationIsRefused : Obligations.OverlappingOperationIsRefused := by
  intro s i j k hgood hq
  rw [exec_eq_perform]
  exact perform_of_busy hgood hq

/-- Settles O11: both forms of the step and every instruction look at the mark first. -/
theorem refusedStateStaysRefused : Obligations.RefusedStateStaysRefused := by
  intro s r h
  refine ⟨stepWith_of_refused exec h, stepWith_of_refused acceptStep h, fun i => ?_⟩
  rw [exec_eq_perform]
  exact perform_of_refused h

theorem accept_of_busy {i j : Instr} {s : State} {k : Nat} (hgood : s.refused = none) (hq : s.seq = .busy j k) :
    accept i s = refuse .overlappingRequest s := by
  simp [accept, hgood, hq]

theorem changeBuffer_of_busy {i : Instr} {s : State} {k : Nat} (hgood : s.refused = none) (hq : s.seq = .busy i k) :
    changeBuffer s = if takesBuffer i then refuse .overlappingRequest s else .next s := by
  simp [changeBuffer, hgood, hq]

/-- The operations that are handed a buffer are the text and the glyph upload (R45). -/
theorem takesBuffer_iff (i : Instr) :
    takesBuffer i = true ↔ (∃ text, i = .writeString text) ∨ ∃ slot data, i = .createCustomChar slot data := by
  cases i <;> simp [takesBuffer]

/-- Settles O30: what the three actions of a context do to a busy block. -/
theorem serialisationViolationsAreRefused : Obligations.SerialisationViolationsAreRefused := by
  intro s i k hgood hq
  refine ⟨fun w => rfl, fun j => ?_, fun hbuffer => ?_, fun htext hglyph => ?_⟩
  · simp only [contextStep, acceptStep, accept_of_busy hgood hq, andThen_refuse]
    rfl
  · simp only [contextStep, changeBuffer_of_busy hgood hq, (takesBuffer_iff i).mpr hbuffer, if_true]
    rfl
  · have none_taken : ¬ takesBuffer i = true := by
      simp [takesBuffer_iff, htext, hglyph]
    simp only [contextStep, changeBuffer_of_busy hgood hq, none_taken]
    rfl

end Sys2Proof.Proofs
end

section
/-! SUPPORT. The sequencer (10_state.md R20, D25): the per-event form of a step reaches, event by event, the states that the
atomic form passes through; a running operation ends; requests that wait are taken in order. -/

namespace Sys2Proof.Proofs

open Sys2Proof.Machine Sys2Proof.Safety Sys2Proof.Claims Sys2Proof.Laws

/-! ## Where the sequencer stands -/

theorem seqAt_of_lt (i : Instr) {p : Plan} {k : Nat} (h : k < p.steps.length) : seqAt i p k = .busy i k := by
  have more : ¬ p.steps.length ≤ k := by omega
  simp [seqAt, more]

theorem seqAt_of_stop (i : Instr) {p : Plan} (k : Nat) {r : Reason} (h : p.stop = some r) : seqAt i p k = .busy i k := by
  simp [seqAt, h]

theorem seqAt_length (i : Instr) {p : Plan} (h : p.stop = none) : seqAt i p p.steps.length = .idle := by
  simp [seqAt, h]

theorem seqAt_cases (i : Instr) (p : Plan) (k : Nat) : seqAt i p k = .idle ∨ seqAt i p k = .busy i k :=
  ite_eq_or_eq _ _ _

/-- Settles O9, from what a step of a busy block can do. -/
theorem requestsWaitWhileBusy : Obligations.RequestsWaitWhileBusy := by
  intro s t i k hq h
  obtain ⟨-, ⟨hidle, -⟩ | ⟨w, rest, j, hidle, -⟩ | ⟨j, n, hbusy, hcase⟩⟩ := step_next_cases h
  · simp [hq] at hidle
  · simp [hq] at hidle
  · obtain ⟨rfl, rfl⟩ : i = j ∧ k = n := by simpa [hq] using hbusy
    rcases hcase with ⟨m, -, -, rfl⟩ | ⟨-, rfl⟩
    · exact ⟨by simp, seqAt_cases i _ (k + 1), .inr ⟨m.event, by simp⟩⟩
    · exact ⟨rfl, .inl rfl, .inl rfl⟩

/-! ## One event of a running operation -/

theorem sequenceStep_of_allowed {i : Instr} {k : Nat} {s : State} {m : Micro}
    (hm : (planOf s.config i).steps[k]? = some m) (ha : Allowed m.event s) :
    sequenceStep i k s = .next ((applyMicro s m).withSeq (seqAt i (planOf s.config i) (k + 1))) := by
  simp [sequenceStep, hm, emit_of_allowed ha]

theorem emit_of_unconfigured {m : Micro} {s : State} {l : Line} {v : Level} (he : m.event = .wr l v)
    (hl : lineGet s.configured l = false) : emit m s = refuse (.unconfiguredLine l) s := by
  simp [emit, issue, drive, he, hl]

theorem sequenceStep_of_unconfigured {i : Instr} {k : Nat} {s : State} {m : Micro} {l : Line} {v : Level}
    (hm : (planOf s.config i).steps[k]? = some m) (he : m.event = .wr l v) (hl : lineGet s.configured l = false) :
    sequenceStep i k s = refuse (.unconfiguredLine l) s := by
  simp [sequenceStep, hm, emit_of_unconfigured he hl]

theorem sequenceStep_of_stop {i : Instr} {s : State} {r : Reason} (hs : (planOf s.config i).stop = some r) :
    sequenceStep i (planOf s.config i).steps.length s = refuse r s := by
  simp [sequenceStep, hs]

/-! ## The atomic form and the per-event form -/

/-- The state in which `k` events of `i`, accepted in `s`, have been emitted. -/
def partWay (i : Instr) (s : State) (k : Nat) : State :=
  (applyAll s ((planOf s.config i).steps.take k)).withSeq (seqAt i (planOf s.config i) k)

@[simp] theorem partWay_config (i : Instr) (s : State) (k : Nat) : (partWay i s k).config = s.config := by
  simp [partWay]

@[simp] theorem partWay_refused (i : Instr) (s : State) (k : Nat) : (partWay i s k).refused = s.refused := by
  simp [partWay]

/-- Acceptance alone stands before the first event. -/
theorem acceptStep_of_ready (i : Instr) {s : State} (hs : Ready s) : acceptStep i s = .next (partWay i s 0) := by
  obtain ⟨hidle, hgood⟩ := hs
  simp [acceptStep, accept, hidle, hgood, partWay]

/-- The event that is next moves the running operation on by one. -/
theorem eventStep_partWay {i : Instr} {s : State} {k : Nat} (hgood : s.refused = none)
    (hk : k < (planOf s.config i).steps.length) (hrun : Runnable ((planOf s.config i).steps.take (k + 1)) s) :
    eventStep (partWay i s k) = .next (partWay i s (k + 1)) := by
  have next_event : (planOf (partWay i s k).config i).steps[k]? = some (planOf s.config i).steps[k] := by simp [hk]
  rw [List.take_succ_eq_append_getElem hk, runnable_append] at hrun
  obtain ⟨-, allowed, -⟩ := hrun
  rw [eventStep, stepWith_of_busy acceptStep (seqAt_of_lt i hk) (by simpa using hgood),
    sequenceStep_of_allowed next_event allowed]
  rw [partWay, partWay, List.take_succ_eq_append_getElem hk, applyAll_append, applyMicro_withSeq, withSeq_withSeq,
    withSeq_config, applyAll_config]
  rfl

theorem eventSteps_snoc (n : Nat) (s : State) : eventSteps (n + 1) s = andThen (eventSteps n s) eventStep := by
  induction n generalizing s with
  | zero =>
    simp only [eventSteps, andThen_next]
    cases eventStep s <;> rfl
  | succ n ih =>
    rw [eventSteps, eventSteps, andThen_assoc]
    exact congrArg (andThen (eventStep s)) (funext ih)

/-- After acceptance, `k` steps emit `k` events. -/
theorem eventSteps_partWay {i : Instr} {s : State} {k : Nat} (hgood : s.refused = none)
    (hk : k ≤ (planOf s.config i).steps.length) (hrun : Runnable ((planOf s.config i).steps.take k) s) :
    eventSteps k (partWay i s 0) = .next (partWay i s k) := by
  induction k with
  | zero => rfl
  | succ k ih =>
    have hrun' : Runnable ((planOf s.config i).steps.take k) s := by
      rw [List.take_succ_eq_append_getElem hk, runnable_append] at hrun
      exact hrun.1
    rw [eventSteps_snoc, ih (by omega) hrun', andThen_next, eventStep_partWay hgood hk hrun]

/-- On a ready block a refused instruction has issued `k` of its events, and is refused where its plan ends so or where the next
event drives a line that is not configured (R87, R89). -/
theorem exec_refused_cases {i : Instr} {s : State} {e : Refusal} (hs : Ready s) (h : exec i s = .refused e) :
    ∃ k r, k ≤ (planOf s.config i).steps.length ∧ Runnable ((planOf s.config i).steps.take k) s ∧
      e = .refuse r (((applyAll s ((planOf s.config i).steps.take k)).withSeq (.busy i k)).withRefused r) ∧
      ((k = (planOf s.config i).steps.length ∧ (planOf s.config i).stop = some r) ∨
        ∃ m l v, (planOf s.config i).steps[k]? = some m ∧ m.event = .wr l v ∧
          lineGet (applyAll s ((planOf s.config i).steps.take k)).configured l = false ∧ r = .unconfiguredLine l) := by
  obtain ⟨hidle, hgood⟩ := hs
  rw [exec_eq_perform, perform_of_ready hidle hgood] at h
  obtain ⟨k, r, hk, hrun, rfl, hwhy⟩ := runFrom_refused h
  simp only [runnable_withSeq, applyAll_withSeq, withSeq_configured] at hrun hwhy
  exact ⟨k, r, hk, hrun, by simp [applyAll_withSeq], hwhy⟩

/-- Where the atomic form is refused after `k` events, so is the next step of the per-event form. -/
theorem eventStep_partWay_refused {i : Instr} {s : State} {e : Refusal} (hs : Ready s) (h : exec i s = .refused e) :
    ∃ k, eventSteps k (partWay i s 0) = .next (partWay i s k) ∧ eventStep (partWay i s k) = .refused e := by
  obtain ⟨k, r, hk, hrun, rfl, hwhy⟩ := exec_refused_cases hs h
  obtain ⟨-, hgood⟩ := hs
  have hgood' : (partWay i s k).refused = none := by simpa using hgood
  refine ⟨k, eventSteps_partWay hgood hk hrun, ?_⟩
  rcases hwhy with ⟨rfl, hstop⟩ | ⟨m, l, v, hm, he, hl, rfl⟩
  · have hq := seqAt_of_stop i (planOf s.config i).steps.length hstop
    have stopped := sequenceStep_of_stop (s := partWay i s (planOf s.config i).steps.length) (by simpa using hstop)
    rw [partWay_config] at stopped
    rw [eventStep, stepWith_of_busy acceptStep hq hgood', stopped, ← hq]
    rfl
  · have hq := seqAt_of_lt i (List.getElem?_eq_some_iff.mp hm).1
    have stopped := sequenceStep_of_unconfigured (s := partWay i s k) (by simpa using hm) he hl
    rw [eventStep, stepWith_of_busy acceptStep hq hgood', stopped, ← hq]
    rfl

/-- Settles O12: the per-event form passes through the states `partWay`, to the end or to the event that is refused. -/
theorem atomicStepEqualsEventSteps : Obligations.AtomicStepEqualsEventSteps := by
  intro s w rest i hs hp hd
  have ready : Ready (s.withPort rest) := hs
  have atomic : step s = exec i (s.withPort rest) := stepWith_of_word exec hs hp hd
  have accepted : eventStep s = .next (partWay i (s.withPort rest) 0) := by
    rw [eventStep, stepWith_of_word acceptStep hs hp hd, acceptStep_of_ready i ready]
  rw [atomic]
  refine ⟨fun t ht => ?_, fun e he => ?_⟩
  · obtain ⟨hidle, hgood, hstop, hrun, rfl⟩ := exec_eq_next.mp ht
    have count : (applyAll (s.withPort rest) (planOf (s.withPort rest).config i).steps).trace.length - s.trace.length =
        (planOf (s.withPort rest).config i).steps.length := by simp
    have done : partWay i (s.withPort rest) (planOf (s.withPort rest).config i).steps.length =
        applyAll (s.withPort rest) (planOf (s.withPort rest).config i).steps := by
      rw [partWay, List.take_length, seqAt_length i hstop]
      exact withSeq_self _ (by simpa using hidle)
    rw [count, eventSteps, accepted, andThen_next, ← done]
    exact eventSteps_partWay hgood le_rfl (by rwa [List.take_length])
  · obtain ⟨k, emitted, stopped⟩ := eventStep_partWay_refused ready he
    refine ⟨k + 1 + 1, ?_⟩
    rw [eventSteps, accepted, andThen_next, eventSteps_snoc, emitted, andThen_next, stopped]

/-! ## A running operation ends -/

/-- The block is idle or has refused after `n` steps. -/
def EndsAfter (n : Nat) (s : State) : Prop := (∃ t, steps n s = .next t ∧ t.seq = .idle) ∨ ∃ e, steps n s = .refused e

/-- A step of a busy block ends the operation, or has emitted an event and left fewer. -/
theorem step_of_busy {i : Instr} {s : State} {k : Nat} (hq : s.seq = .busy i k) :
    EndsAfter 1 s ∨
      ∃ t, step s = .next t ∧ t.seq = .busy i (k + 1) ∧ t.config = s.config ∧ k < (planOf s.config i).steps.length := by
  cases h : step s with
  | fault f => exact nomatch f
  | refused e => exact .inl (.inr ⟨e, by simp [steps, h]⟩)
  | next t =>
    have one : steps 1 s = .next t := by simp [steps, h]
    obtain ⟨-, ⟨hidle, -⟩ | ⟨w, rest, j, hidle, -⟩ | ⟨j, n, hbusy, hcase⟩⟩ := step_next_cases h
    · simp [hq] at hidle
    · simp [hq] at hidle
    · obtain ⟨rfl, rfl⟩ : i = j ∧ k = n := by simpa [hq] using hbusy
      rcases hcase with ⟨m, hm, -, rfl⟩ | ⟨-, rfl⟩
      · have hk := (List.getElem?_eq_some_iff.mp hm).1
        rcases seqAt_cases i (planOf s.config i) (k + 1) with hend | hmore
        · exact .inl (.inl ⟨_, one, hend⟩)
        · exact .inr ⟨_, rfl, hmore, by simp, hk⟩
      · exact .inl (.inl ⟨_, one, rfl⟩)

/-- By induction on the number of events that remain. -/
theorem running_ends {i : Instr} (n : Nat) {s : State} {k : Nat} (hq : s.seq = .busy i k)
    (hn : (planOf s.config i).steps.length - k = n) : ∃ m, m ≤ n + 1 ∧ EndsAfter m s := by
  induction n generalizing s k with
  | zero =>
    rcases step_of_busy hq with hend | ⟨t, -, -, -, hk⟩
    · exact ⟨1, le_rfl, hend⟩
    · omega
  | succ n ih =>
    rcases step_of_busy hq with hend | ⟨t, h, ht, hconfig, hk⟩
    · exact ⟨1, by omega, hend⟩
    · obtain ⟨m, hm, hend⟩ := ih ht (by rw [hconfig]; omega)
      have first : steps (m + 1) s = steps m t := by simp [steps, h]
      exact ⟨m + 1, by omega, by simpa only [EndsAfter, first] using hend⟩

/-- Settles O13, from the number of events that remain. -/
theorem everyRunningOperationEnds : Obligations.EveryRunningOperationEnds := by
  intro s i k hq
  rw [Plan.events, List.length_map]
  exact running_ends _ hq rfl

/-! ## Requests that wait -/

/-- An operation does not look at the words that wait (R46). -/
theorem exec_withPort {i : Instr} {s t : State} (p : List PortWord) (h : exec i s = .next t) :
    exec i (s.withPort p) = .next (t.withPort p) := by
  obtain ⟨hidle, hgood, hstop, hrun, rfl⟩ := exec_eq_next.mp h
  exact exec_eq_next.mpr ⟨hidle, hgood, hstop, runnable_withPort.mpr hrun, (applyAll_withPort _ _ _).symm⟩

/-- Settles O19, from the state in which a completed operation leaves the block. -/
theorem operationsLeaveConfigurationAndPort : Obligations.OperationsLeaveConfigurationAndPort := by
  intro i s t h
  obtain ⟨hidle, hgood, -, -, rfl⟩ := exec_eq_next.mp h
  exact ⟨by simp, by simp, by simpa using hidle, by simpa using hgood⟩

/-- A ready block takes the word of `i` and runs `i`, which leaves the words behind it where they were. -/
theorem step_of_encoded {i : Instr} {s t : State} (p : List PortWord) (h : exec i s = .next t) :
    step (s.withPort (encode i :: p)) = .next (t.withPort p) := by
  obtain ⟨hidle, hgood, -⟩ := exec_eq_next.mp h
  calc step (s.withPort (encode i :: p)) = exec i (s.withPort p) :=
        stepWith_of_word exec ⟨hidle, hgood⟩ rfl (decodeOfEncodeIsIdentity i)
    _ = .next (t.withPort p) := exec_withPort p h

/-- Settles O14, by induction on the requests: a step takes the first, and leaves the port with the others. -/
theorem waitingRequestsRunInOrder : Obligations.WaitingRequestsRunInOrder := by
  intro is rest s t hs h
  induction is generalizing s with
  | nil => exact h
  | cons i is ih =>
    obtain ⟨u, hu, hrest⟩ := andThen_eq_next.mp h
    obtain ⟨-, hport, hready⟩ := operationsLeaveConfigurationAndPort i _ u hu
    have waiting : u.withPort rest = u := by
      rw [show rest = u.port from hport.symm]
      rfl
    have first : step (s.withPort (encode i :: (is.map encode ++ rest))) = .next (u.withPort (is.map encode ++ rest)) :=
      step_of_encoded (s := s.withPort rest) _ hu
    calc steps (is.length + 1) (s.withPort (encode i :: (is.map encode ++ rest)))
        = steps is.length (u.withPort (is.map encode ++ rest)) := by rw [steps, first, andThen_next]
      _ = .next t := ih u hready (by rw [← waiting] at hrest; exact hrest)

end Sys2Proof.Proofs
end

section
/-! SUPPORT. What each operation emits, in the terms of the statements: the address of a cell, the frames an operation sends, and
its events (30_encoding.md R54, R55, R64; 40_init.md R65). -/

namespace Sys2Proof.Proofs

open Sys2Proof.Machine Sys2Proof.Safety Sys2Proof.Claims Sys2Proof.Laws

/-! ## The address of a cell -/

/-- The set-DDRAM-address byte as a sum: bit 7 is clear in the address (R55). -/
theorem setDdramByte_eq (a : BitVec 7) : setDdramByte a = BitVec.ofNat 8 (0x80 + a.toNat) := by
  have ha : a.toNat < 2 ^ 7 := a.isLt
  have sum : 0x80 + a.toNat = 0x80 ||| a.toNat := Nat.two_pow_add_eq_or_of_lt ha 1
  apply BitVec.eq_of_toNat_eq
  rw [setDdramByte, BitVec.toNat_or, BitVec.toNat_setWidth, BitVec.toNat_ofNat, BitVec.toNat_ofNat,
    Nat.mod_eq_of_lt (by omega : a.toNat < 2 ^ 8), Nat.mod_eq_of_lt (by omega : 0x80 + a.toNat < 2 ^ 8)]
  exact sum.symm

/-- The rows 0 to 3 have the bases of R31. -/
theorem rowBase_eq_base {y : Byte} (h : y.toNat ≤ 3) : rowBase y = some (base y) := by
  obtain hy | hy | hy | hy : y.toNat = 0 ∨ y.toNat = 1 ∨ y.toNat = 2 ∨ y.toNat = 3 := by omega
  all_goals simp [rowBase, base, hy]

theorem cellAddress_of_row {x y : Byte} (h : y.toNat ≤ 3) :
    cellAddress x y =
      if base y + x.toNat ≤ 0x7F then .fits (BitVec.ofNat 7 (base y + x.toNat)) else .overflow := by
  rw [cellAddress, rowBase_eq_base h]

theorem cellAddress_fits {x y : Byte} (hy : y.toNat ≤ 3) (hsum : base y + x.toNat ≤ 0x7F) :
    cellAddress x y = .fits (BitVec.ofNat 7 (base y + x.toNat)) := by
  rw [cellAddress_of_row hy, if_pos hsum]

theorem cellAddress_overflow {x y : Byte} (hy : y.toNat ≤ 3) (hsum : 0x7F < base y + x.toNat) :
    cellAddress x y = .overflow := by
  rw [cellAddress_of_row hy, if_neg (by omega)]

/-- The byte sent for a cell whose sum fits is `0x80 + ROW_BASE[y] + x` (R55, C1). -/
theorem setDdramByte_cell {x y : Byte} (hsum : base y + x.toNat ≤ 0x7F) :
    setDdramByte (BitVec.ofNat 7 (base y + x.toNat)) = cellByte x y := by
  rw [setDdramByte_eq, BitVec.toNat_ofNat, cellByte, Nat.mod_eq_of_lt (by omega), Nat.add_assoc]

/-- A cell has no row, or an address that fits, or a sum that leaves 7 bits (R55, R60); what is sent to address it. -/
theorem cellAddress_cases (x y : Byte) :
    (cellAddress x y = .noRow ∧ addressing x y = []) ∨
      (∃ a, cellAddress x y = .fits a ∧ addressing x y = [⟨rsCmd, setDdramByte a⟩]) ∨ cellAddress x y = .overflow := by
  by_cases hy : y.toNat ≤ 3
  · by_cases hsum : base y + x.toNat ≤ 0x7F
    · refine .inr (.inl ⟨_, cellAddress_fits hy hsum, ?_⟩)
      rw [addressing, if_pos hy, setDdramByte_cell hsum]
      rfl
    · exact .inr (.inr (cellAddress_overflow hy (by omega)))
  · exact .inl ⟨cellAddress_noRow (by omega), if_neg hy⟩

/-! ## The frames of an operation -/

/-- An operation of whole frames sends the frames that the statements give, unless its cell has no address (R55, R64). -/
theorem framesOf_eq {i : Instr} (hi : i ≠ .init) (hk : keepsPairing i = true) :
    framesOf i = if WellFormed i then some (framesSent i) else none := by
  cases i with
  | init => exact absurd rfl hi
  | transferNibble n k => simp [keepsPairing] at hk
  | gotoxy x y =>
    obtain ⟨hc, ha⟩ | ⟨a, hc, ha⟩ | hc := cellAddress_cases x y
    all_goals simp [framesOf, WellFormed, WellFormed.cellOk, framesSent, *]
  | writeCustomChar x y slot =>
    obtain ⟨hc, ha⟩ | ⟨a, hc, ha⟩ | hc := cellAddress_cases x y
    all_goals simp [framesOf, WellFormed, WellFormed.cellOk, framesSent, dat, rsData, *]
  | clearXY x y =>
    obtain ⟨hc, ha⟩ | ⟨a, hc, ha⟩ | hc := cellAddress_cases x y
    all_goals simp [framesOf, WellFormed, WellFormed.cellOk, framesSent, dat, rsData, chSpace, *]
  | createCustomChar slot data => simp [framesOf, WellFormed, framesSent, setCgramByte_slotIndex, glyphBytes, pixelRows,
      cmd, dat, rsCmd, rsData]
  | frameSetCgram k => simp [framesOf, WellFormed, framesSent, setCgramByte_eq, cmd, rsCmd]
  | frameSetDdram a => simp [framesOf, WellFormed, framesSent, setDdramByte_eq, cmd, rsCmd]
  | _ => rfl

theorem framesOf_of_wellFormed {i : Instr} (hi : i ≠ .init) (hk : keepsPairing i = true) (hw : WellFormed i = true) :
    framesOf i = some (framesSent i) := by
  rw [framesOf_eq hi hk, if_pos hw]

/-- What an operation sends is what the statements say it sends, and only an operation of whole frames sends some. -/
theorem framesSent_of_framesOf {i : Instr} {fs : List Frame} (h : framesOf i = some fs) :
    fs = framesSent i ∧ i ≠ .init ∧ keepsPairing i = true := by
  have hi : i ≠ .init := by
    rintro rfl
    simp [framesOf] at h
  have hk : keepsPairing i = true := by
    cases i with
    | transferNibble n k => simp [framesOf] at h
    | _ => rfl
  rw [framesOf_eq hi hk, Option.ite_none_right_eq_some] at h
  exact ⟨(Option.some.inj h.2).symm, hi, hk⟩

theorem wellFormed_of_framesOf {i : Instr} {fs : List Frame} (h : framesOf i = some fs) : WellFormed i = true := by
  obtain ⟨-, hi, hk⟩ := framesSent_of_framesOf h
  rw [framesOf_eq hi hk, Option.ite_none_right_eq_some] at h
  exact h.1

/-- A well-formed operation of whole frames completes on a ready block whose frame lines are configured, and has sent its
frames. -/
theorem exec_framesSent {i : Instr} {s : State} (hi : i ≠ .init) (hk : keepsPairing i = true) (hw : WellFormed i = true)
    (hs : Ready s) (hc : FrameLinesConfigured s) : exec i s = .next (sent s (framesSent i)) :=
  exec_sends (framesOf_of_wellFormed hi hk hw) hs hc

/-- An operation that sends no frame does nothing (R60, R68). -/
theorem exec_of_no_frames {i : Instr} {s : State} (h : framesOf i = some []) (hs : Ready s) : exec i s = .next s := by
  obtain ⟨hidle, hgood⟩ := hs
  exact exec_of_framesOf h hidle hgood (.inl rfl)

/-! ## What frames leave unchanged, and the ghost -/

@[simp] theorem sent_config (s : State) (fs : List Frame) : (sent s fs).config = s.config := by
  rw [← sendFrames_eq_sent, sendFrames_config]

@[simp] theorem sent_configured (s : State) (fs : List Frame) : (sent s fs).configured = s.configured := by
  rw [← sendFrames_eq_sent, sendFrames_configured]

@[simp] theorem sent_seq (s : State) (fs : List Frame) : (sent s fs).seq = s.seq := by
  induction fs generalizing s with
  | nil => rfl
  | cons f fs ih => exact ih _

@[simp] theorem sent_refused (s : State) (fs : List Frame) : (sent s fs).refused = s.refused := by
  induction fs generalizing s with
  | nil => rfl
  | cons f fs ih => exact ih _

@[simp] theorem sent_port (s : State) (fs : List Frame) : (sent s fs).port = s.port := by
  induction fs generalizing s with
  | nil => rfl
  | cons f fs ih => exact ih _

@[simp] theorem sent_rw (s : State) (fs : List Frame) : (sent s fs).line.rw = s.line.rw := by
  induction fs generalizing s with
  | nil => rfl
  | cons f fs ih => exact ih _

/-- The ghost follows the frames one after another (R26). -/
theorem sent_aptr (s : State) (fs : List Frame) : (sent s fs).aptr = fs.foldl (fun a f => ghostAfter f a) s.aptr := by
  induction fs generalizing s with
  | nil => rfl
  | cons f fs ih => exact ih _

/-! ## The events of an operation -/

theorem framesSteps_events (c : Config) (fs : List Frame) :
    (framesSteps c fs).map Micro.event = fs.flatMap (frameEvents c.tEnMs) := by
  simp only [framesSteps, List.map_flatMap, frameSteps_frameEvents]

/-- The drives of the first data lines are the beginning of the events of a whole transfer (R78). -/
theorem nibbleSteps_events (c : Config) (n : Byte) {count : Nat} (h : count ≤ 4) :
    (nibbleSteps c n count).map Micro.event = (nibbleEvents c.tEnMs n).take count ++ strobeEvents c.tEnMs := by
  interval_cases count <;> simp [nibbleSteps, dataLines, nibbleEvents, strobeEvents, lv_eq_bitLevel]

theorem operationEvents_of_frames (T : Nat) {i : Instr} (hi : i ≠ .init) (hk : keepsPairing i = true) :
    operationEvents T i = (framesSent i).flatMap (frameEvents T) := by
  cases i with
  | init => exact absurd rfl hi
  | transferNibble n k => simp [keepsPairing] at hk
  | _ => rfl

/-- A plan that reaches no refusal has the events that the statements give. -/
theorem planOf_events {c : Config} {i : Instr} (h : (planOf c i).stop = none) :
    (planOf c i).events = operationEvents c.tEnMs i := by
  obtain ⟨fs, hf, hp⟩ | ⟨rfl, hp⟩ | ⟨n, k, rfl, hk, hp⟩ | ⟨-, r, hp⟩ := planOf_shape c i
  · obtain ⟨rfl, hi, hk⟩ := framesSent_of_framesOf hf
    rw [hp, Plan.events, framesSteps_events, operationEvents_of_frames c.tEnMs hi hk]
  · rw [hp, Plan.events, List.map_append, framesSteps_events]
    rfl
  · rw [hp, Plan.events, nibbleSteps_events c n hk]
    rfl
  · simp [hp] at h

/-- An operation that completes has emitted its events and nothing else (R20). -/
theorem exec_trace {i : Instr} {s t : State} (h : exec i s = .next t) :
    t.trace = s.trace ++ operationEvents s.config.tEnMs i := by
  obtain ⟨-, -, hstop, -, rfl⟩ := exec_eq_next.mp h
  rw [applyAll_trace, ← planOf_events hstop]
  rfl

/-- Settles O21: the events are those of the plan, which reads the operation and the parameters only. -/
theorem eventListDependsOnOperandsOnly : Obligations.EventListDependsOnOperandsOnly := by
  intro c i
  refine ⟨operationEvents c.tEnMs i, fun s t hc h => ?_⟩
  subst hc
  exact exec_trace h

/-! ## `init` -/

theorem initPrelude_rw (s : State) : (applyAll s initPrelude).line.rw = .low := by
  simp [initPrelude, lineSet, Level.val]

/-- The state after `init`: every line is configured, RW is low, and the six frames of R65 have been sent. -/
theorem exec_init {s : State} (hs : Ready s) : exec .init s = .next (sent (applyAll s initPrelude) handshake) := by
  obtain ⟨hidle, hgood⟩ := hs
  have configured : ∀ l, l ≠ .rw → lineGet (applyAll s initPrelude).configured l = true :=
    fun l _ => initPrelude_configured s l
  have frames : applyAll (applyAll s initPrelude) (framesSteps s.config initFrames) =
      sent (applyAll s initPrelude) handshake := by
    rw [← applyAll_config s initPrelude, applyAll_framesSteps, sendFrames_eq_sent]
    rfl
  rw [exec_eq_next, show planOf s.config .init = _ from initPlan_eq s.config]
  exact ⟨hidle, hgood, rfl, runnable_append.mpr ⟨runnable_initPrelude s, runnable_framesSteps initFrames configured⟩,
    by rw [applyAll_append, frames]⟩

/-- Settles O36: the last frame of the handshake gives the lines, RW apart, and the clear command gives the ghost. -/
theorem initResult : Obligations.InitResult := by
  intro s hs
  refine ⟨_, rfl, ?_, ?_⟩
  · rw [List.length_append, frames_length]
    rfl
  rw [exec_init hs, Host.Outcome.next.injEq]
  have trace : (applyAll s initPrelude).trace = s.trace ++ initPrelude.map Micro.event := applyAll_trace s initPrelude
  have lines := sent_snoc_line (applyAll s initPrelude) (handshake.take 5) (cmd 0x06#8)
  refine state_ext (by simp) ?_ (lines_ext fun l => ?_) (by simp) ?_ ?_ (by simp) (by simp)
  · refine lines.trans ?_
    simp [linesAfter, initPrelude_rw, cmd, Level.val, bitVal]
  · rw [sent_configured, initPrelude_configured]
    cases l <;> rfl
  · rw [sent_trace, trace, applyAll_config, List.append_assoc]
    rfl
  · rw [sent_aptr]
    simp [handshake, ghostAfter, cmd, rsCmd]

end Sys2Proof.Proofs
end

section
/-! SUPPORT. What every step keeps of the record (10_state.md R13 to R16, R25; 20_memory.md R41): the events a step adds, and the
lines and marks that the trace accounts for. -/

namespace Sys2Proof.Proofs

open Sys2Proof.Machine Sys2Proof.Safety Sys2Proof.Claims Sys2Proof.Laws

/-! ## The events of a step -/

theorem withPort_port_self {s : State} {p : List PortWord} (h : s.port = p) : s.withPort p = s := by
  subst h
  rfl

/-- A step issues events of a plan, moves the sequencer and takes words from the port, and that is all it does. -/
theorem step_effects {s t : State} (h : step s = .next t) :
    ∃ ms q p, (∀ m ∈ ms, ∃ i, m ∈ (planOf s.config i).steps) ∧ Runnable ms s ∧
      t = ((applyAll s ms).withSeq q).withPort p := by
  obtain ⟨-, ⟨-, -, rfl⟩ | ⟨w, rest, i, -, -, -, hexec⟩ | ⟨i, k, -, hcase⟩⟩ := step_next_cases h
  · exact ⟨[], t.seq, t.port, by simp, trivial, rfl⟩
  · obtain ⟨hidle, -, -, hrun, rfl⟩ := exec_eq_next.mp hexec
    refine ⟨(planOf s.config i).steps, .idle, rest, fun m hm => ⟨i, hm⟩, runnable_withPort.mp hrun, ?_⟩
    rw [applyAll_withPort, withSeq_self _ (by simpa using hidle)]
    rfl
  · rcases hcase with ⟨m, hm, ha, rfl⟩ | ⟨-, rfl⟩
    · refine ⟨[m], seqAt i (planOf s.config i) (k + 1), s.port, fun n hn => ?_, ⟨ha, trivial⟩, ?_⟩
      · rw [List.mem_singleton.mp hn]
        exact ⟨i, List.mem_of_getElem? hm⟩
      · exact (withPort_port_self (by simp)).symm
    · exact ⟨[], .idle, s.port, by simp, trivial, rfl⟩

/-- No plan raises RW (R13, R16). -/
theorem planOf_keeps_write_mode {c : Config} {i : Instr} {m : Micro} (h : m ∈ (planOf c i).steps) :
    m.event ≠ .wr .rw .high := by
  obtain ⟨-, ⟨l, he⟩ | he⟩ | ⟨l, v, he, hl⟩ | he := planOf_event h
  all_goals simp [he]
  exact fun hrw => absurd hrw hl

/-- What every event that may be issued keeps, if it does not raise RW, the events of plans keep. -/
theorem applyAll_keeps {P : State → Prop} {c : Config} {ms : List Micro} {s : State}
    (keep : ∀ u m, P u → Allowed m.event u → m.event ≠ .wr .rw .high → P (applyMicro u m))
    (hplan : ∀ m ∈ ms, ∃ i, m ∈ (planOf c i).steps) (hrun : Runnable ms s) (hs : P s) : P (applyAll s ms) := by
  induction ms generalizing s with
  | nil => exact hs
  | cons m ms ih =>
    obtain ⟨ha, hrun⟩ := hrun
    obtain ⟨i, hi⟩ := hplan m (by simp)
    exact ih (fun n hn => hplan n (by simp [hn])) hrun (keep s m hs ha (planOf_keeps_write_mode hi))

/-! ## The refused step -/

/-- A refused instruction leaves the trace longer by what it emitted, and the mark of its reason (R87, R89). -/
theorem exec_refused_state {i : Instr} {s u : State} {r : Reason} (h : exec i s = .refused (.refuse r u)) :
    s.trace <+: u.trace ∧ u.refused = some r := by
  cases hr : s.refused with
  | some r' =>
    rw [exec_eq_perform, perform_of_refused hr] at h
    cases h
    exact ⟨List.prefix_rfl, hr⟩
  | none =>
    cases hq : s.seq with
    | busy j k =>
      rw [exec_eq_perform, perform_of_busy hr hq] at h
      cases h
      exact ⟨List.prefix_rfl, rfl⟩
    | idle =>
      obtain ⟨k, r', -, -, he, -⟩ := exec_refused_cases ⟨hq, hr⟩ h
      cases he
      exact ⟨by simp, rfl⟩

theorem sequenceStep_refused_state {i : Instr} {k : Nat} {s u : State} {r : Reason}
    (h : sequenceStep i k s = .refused (.refuse r u)) : u = s.withRefused r := by
  unfold sequenceStep at h
  cases hm : (planOf s.config i).steps[k]? with
  | some m =>
    simp only [hm] at h
    rcases emit_cases m s with ⟨-, he⟩ | ⟨l, v, -, -, he⟩ <;> rw [he] at h <;> cases h
    rfl
  | none =>
    simp only [hm] at h
    cases hs : (planOf s.config i).stop with
    | none => simp [hs] at h
    | some r' =>
      simp only [hs] at h
      cases h
      rfl

/-- A refused step leaves the trace longer by what it emitted, and the mark of its reason. -/
theorem step_refused_state {s u : State} {r : Reason} (h : step s = .refused (.refuse r u)) :
    s.trace <+: u.trace ∧ u.refused = some r := by
  cases hr : s.refused with
  | some r' =>
    rw [step, stepWith_of_refused exec hr] at h
    cases h
    exact ⟨List.prefix_rfl, hr⟩
  | none =>
    cases hq : s.seq with
    | busy i k =>
      rw [step, stepWith_of_busy exec hq hr] at h
      rw [sequenceStep_refused_state h]
      exact ⟨List.prefix_rfl, rfl⟩
    | idle =>
      cases hp : s.port with
      | nil =>
        rw [idleBlockWithoutRequestWaits s ⟨hq, hr⟩ hp] at h
        cases h
      | cons w rest =>
        cases hd : decode w with
        | ok i =>
          rw [step, stepWith_of_word exec ⟨hq, hr⟩ hp hd] at h
          exact exec_refused_state (s := s.withPort rest) h
        | error e =>
          obtain ⟨code⟩ := e
          rw [step, stepWith] at h
          simp only [hr, hq, fetch, hp, hd] at h
          cases h
          exact ⟨List.prefix_rfl, rfl⟩

/-- Settles O18: a completed step appends its events, and a refused one what came before the refusal. -/
theorem traceOnlyGrows : Obligations.TraceOnlyGrows := by
  refine fun s => ⟨fun t h => ?_, fun r u h => step_refused_state h⟩
  obtain ⟨ms, q, p, -, -, rfl⟩ := step_effects h
  simp

/-! ## The invariant of the record -/

/-- Settles O15, field by field. -/
theorem resetIsAsTheTableSays : Obligations.ResetIsAsTheTableSays := by
  refine ⟨fun l => ?_, fun l => ?_, rfl, rfl, rfl, rfl, rfl, rfl⟩
  · cases l <;> rfl
  · cases l <;> rfl

/-- Settles O16: nothing has been emitted and nothing configured. -/
theorem resetMeetsRecordInv : Obligations.ResetMeetsRecordInv := by
  obtain ⟨-, unconfigured, -, empty, -⟩ := resetIsAsTheTableSays
  exact ⟨rfl, by simp [ConfiguredFollowsTrace, unconfigured, empty], by simp [DrivenLinesConfigured, empty], nofun⟩

/-- A line that no event drove is X (R41 c). -/
theorem levelsAfter_of_undriven {tr : List Event} {l : Line} (h : ∀ v, .wr l v ∉ tr) :
    lineGet (levelsAfter tr) l = .x := by
  induction tr using List.reverseRecOn with
  | nil => cases l <;> rfl
  | append_singleton tr e ih =>
    simp only [List.mem_append, List.mem_singleton, not_or] at h
    have before := ih fun v => (h v).1
    rw [levelsAfter_snoc]
    cases e with
    | cfg k => exact before
    | dly n => exact before
    | wr k v =>
      have other : l ≠ k := by
        rintro rfl
        exact (h v).2 rfl
      rw [follow, lineGet_lineSet_ne _ _ other, before]

/-- Where the record accounts for the lines, an event changes them as the observer sees it: a `CFG` of a line that was not
configured finds it X already. -/
theorem effect_line_of_recordInv {s : State} (h : RecordInv s) (e : Event) : (effect e s).line = follow s.line e := by
  obtain ⟨hline, -, hdriven, -⟩ := h
  cases e with
  | wr l v => rfl
  | dly n => rfl
  | cfg l =>
    rw [effect_cfg_line, follow]
    split
    · rfl
    next unconfigured =>
      have floating : lineGet s.line l = .x := by
        rw [show s.line = levelsAfter s.trace from hline]
        exact levelsAfter_of_undriven fun v hv => unconfigured (hdriven l v hv)
      refine lines_ext fun k => ?_
      rw [lineGet_lineSet]
      split
      next heq => rw [heq, floating]
      · rfl

theorem effect_configuredFollowsTrace {s : State} (h : ConfiguredFollowsTrace s) (e : Event) :
    ConfiguredFollowsTrace (effect e s) := by
  intro l
  have before := h l
  cases e with
  | cfg k =>
    by_cases hlk : l = k
    · simp [hlk]
    · simp [lineGet_lineSet_ne _ _ hlk, before, hlk]
  | wr k v => simp [before]
  | dly n => simp [before]

theorem effect_drivenLinesConfigured {s : State} (h : DrivenLinesConfigured s) {e : Event} (ha : Allowed e s) :
    DrivenLinesConfigured (effect e s) := by
  intro l v hv
  rw [effect_trace, List.mem_append, List.mem_singleton] at hv
  refine effect_configured_mono e ?_
  rcases hv with hv | hv
  · exact h l v hv
  · exact ha l v hv.symm

/-- Only a drive of RW high raises RW. -/
theorem follow_rw_ne_high {L : Lines LineVal} (h : L.rw ≠ .high) {e : Event} (he : e ≠ .wr .rw .high) :
    (follow L e).rw ≠ .high := by
  cases e with
  | cfg k => exact h
  | dly n => exact h
  | wr k v =>
    cases k with
    | rw => cases v with
      | low => exact nofun
      | high => exact absurd rfl he
    | _ => exact h

theorem effect_recordInv {s : State} (h : RecordInv s) {e : Event} (ha : Allowed e s) (he : e ≠ .wr .rw .high) :
    RecordInv (effect e s) := by
  have lines := effect_line_of_recordInv h e
  obtain ⟨hline, hconfigured, hdriven, hwrite⟩ := h
  refine ⟨?_, effect_configuredFollowsTrace hconfigured e, effect_drivenLinesConfigured hdriven ha, ?_⟩
  · rw [LinesFollowTrace, lines, effect_trace, levelsAfter_snoc, show s.line = levelsAfter s.trace from hline]
  · rw [WriteModeHeld, lines]
    exact follow_rw_ne_high hwrite he

/-- The record holds no ghost and no sequencer. -/
theorem applyMicro_recordInv (s : State) (m : Micro) (h : RecordInv s) (ha : Allowed m.event s)
    (he : m.event ≠ .wr .rw .high) : RecordInv (applyMicro s m) := by
  have hinv := effect_recordInv h ha he
  unfold applyMicro
  cases m.ends <;> exact hinv

/-- Settles O17: each event of a plan keeps the record. -/
theorem stepKeepsRecordInv : Obligations.StepKeepsRecordInv := by
  intro s t hs h
  obtain ⟨ms, q, p, hplan, hrun, rfl⟩ := step_effects h
  exact applyAll_keeps (P := RecordInv) applyMicro_recordInv hplan hrun hs

/-! ## A line that is driven stays driven -/

theorem follow_keeps_driven {L : Lines LineVal} {l : Line} (h : lineGet L l ≠ .x) (e : Event) :
    lineGet (follow L e) l ≠ .x := by
  cases e with
  | cfg k => exact h
  | dly n => exact h
  | wr k v =>
    rw [follow, lineGet_lineSet]
    split
    · cases v <;> exact nofun
    · exact h

/-- Settles O24: while the record accounts for the lines, each event changes them as the observer sees it. -/
theorem drivenLinesStayDriven : Obligations.DrivenLinesStayDriven := by
  intro s t hs h l hl
  obtain ⟨ms, q, p, hplan, hrun, rfl⟩ := step_effects h
  have keep (u : State) (m : Micro) (hu : RecordInv u ∧ lineGet u.line l ≠ .x) (ha : Allowed m.event u)
      (he : m.event ≠ .wr .rw .high) : RecordInv (applyMicro u m) ∧ lineGet (applyMicro u m).line l ≠ .x := by
    obtain ⟨hinv, hdriven⟩ := hu
    refine ⟨applyMicro_recordInv u m hinv ha he, ?_⟩
    rw [applyMicro_line, effect_line_of_recordInv hinv]
    exact follow_keeps_driven hdriven m.event
  exact (applyAll_keeps keep hplan hrun ⟨hs, hl⟩).2

end Sys2Proof.Proofs
end

section
/-! SUPPORT. What the controller is shown: the frames reassembled from the samples of a trace (20_memory.md R42, R43), and samples
of levels only (10_state.md R16). -/

namespace Sys2Proof.Proofs

open Sys2Proof.Machine Sys2Proof.Safety Sys2Proof.Claims Sys2Proof.Laws

/-! ## The lines along the frames -/

theorem foldl_follow_frameEvents (L : Lines LineVal) (T : Nat) (f : Frame) :
    (frameEvents T f).foldl follow L = linesAfter L f := by
  simp only [frameEvents, List.foldl, follow, lineSet, bitLevel_val]
  rfl

/-! ## Reassembling frames -/

theorem bitVal_bit (bit : Bool) : Machine.LineVal.bit (bitVal bit) = some bit := by
  cases bit <;> rfl

theorem level_val (v : Level) : Machine.LineVal.level v.val = some v := by
  cases v <;> rfl

/-- The four levels of a nibble read back as its low four bits, the highest first (R42). -/
theorem nibbleSample_nibble (L : Lines LineVal) (n : Byte) :
    (nibbleSample L n).nibble = some (n.extractLsb' 0 4) := by
  simp only [Sample.nibble, nibbleSample, bitVal_bit, Option.some.injEq]
  apply BitVec.eq_of_getLsbD_eq
  intro i hi
  simp only [BitVec.getLsbD_append, BitVec.getLsbD_ofBool, BitVec.getLsbD_extractLsb']
  interval_cases i <;> simp

/-- The two nibbles of a byte side by side are the byte (R43, R52). -/
theorem nibbles_append (b : Byte) : (hiNibble b).extractLsb' 0 4 ++ (loNibble b).extractLsb' 0 4 = b := by
  rw [hiNibble_eq_field, loNibble_eq_field, BitVec.extractLsb'_setWidth_of_le (by decide),
    BitVec.extractLsb'_setWidth_of_le (by decide), BitVec.extractLsb'_eq_self, BitVec.extractLsb'_eq_self]
  exact (BitVec.extractLsb'_append_extractLsb'_eq_extractLsb' rfl).trans BitVec.extractLsb'_eq_self

/-- The two samples of a frame pair up to it (R43). -/
theorem joinPair_frame {L : Lines LineVal} (hrw : L.rw = .low) (f : Frame) :
    joinPair (nibbleSample { L with rs := f.rs.val } (hiNibble f.byte))
      (nibbleSample { L with rs := f.rs.val } (loNibble f.byte)) = some f := by
  rw [joinPair, nibbleSample_nibble, nibbleSample_nibble]
  simp [nibbleSample, level_val, hrw, nibbles_append]

/-- Frames sent while RW is low are the frames reassembled from their samples (R43). -/
theorem pairSamples_frames {L : Lines LineVal} (hrw : L.rw = .low) (c : Config) (fs : List Frame) :
    pairSamples (latchedFrom L (fs.flatMap (frameEvents c.tEnMs))) = some fs := by
  induction fs generalizing L with
  | nil => rfl
  | cons f fs ih =>
    have first : pairSamples (latchedFrom L (frameEvents c.tEnMs f)) = some [f] := by
      rw [latchedFrom_frameEvents, pairSamples, joinPair_frame hrw]
      rfl
    rw [List.flatMap_cons, latchedFrom_append, foldl_follow_frameEvents]
    exact pairSamples_append first (ih hrw)

/-- The events of `init` before its first frame: seven `CFG`, and the drive of RW (R65). -/
theorem latchedFrom_initPrelude (L : Lines LineVal) : latchedFrom L (initPrelude.map Micro.event) = [] := rfl

theorem foldl_follow_initPrelude (L : Lines LineVal) :
    (initPrelude.map Micro.event).foldl follow L = { L with rw := .low } := rfl

theorem operationEvents_init (T : Nat) :
    operationEvents T .init = initPrelude.map Micro.event ++ handshake.flatMap (frameEvents T) := rfl

/-- The samples of an operation of whole frames pair up to its frames, whatever stood on the lines but RW. -/
theorem pairSamples_operation {L : Lines LineVal} (c : Config) {i : Instr} (hrw : i = .init ∨ L.rw = .low)
    (hk : keepsPairing i = true) :
    pairSamples (latchedFrom L (operationEvents c.tEnMs i)) = some (framesSent i) := by
  by_cases hi : i = .init
  · subst hi
    rw [operationEvents_init, latchedFrom_append, latchedFrom_initPrelude, foldl_follow_initPrelude]
    exact pairSamples_frames rfl c handshake
  · rw [operationEvents_of_frames c.tEnMs hi hk]
    exact pairSamples_frames (hrw.resolve_left hi) c (framesSent i)

/-- Settles O51: the samples of the new events come after the old ones, from the lines as they stand. -/
theorem framesReassemble : Obligations.FramesReassemble := by
  rintro i s t fs ⟨hline, -⟩ hrw hk hfs h
  rw [show s.line = levelsAfter s.trace from hline] at hrw
  rw [frames, exec_trace h, latched_append]
  exact pairSamples_append hfs (pairSamples_operation s.config hrw hk)

/-! ## Samples of levels only -/

/-- A sample of the lines is of levels with RW low exactly when RW is low and every line but EN holds a level. -/
theorem sampleDefined_iff (L : Lines LineVal) :
    SampleDefined (sampleOf L) ↔ L.rw = .low ∧ ∀ l, l ≠ .en → lineGet L l ≠ .x := by
  constructor
  · rintro ⟨hrs, hrw, h3, h2, h1, h0⟩
    refine ⟨hrw, fun l hl => ?_⟩
    cases l with
    | rw =>
      have low : L.rw = .low := hrw
      simp [lineGet, low]
    | en => exact absurd rfl hl
    | rs => exact hrs
    | d0 => exact h0
    | d1 => exact h1
    | d2 => exact h2
    | d3 => exact h3
  · rintro ⟨hrw, h⟩
    exact ⟨h .rs nofun, hrw, h .d3 nofun, h .d2 nofun, h .d1 nofun, h .d0 nofun⟩

/-- The lines stay fit to be sampled: a driven line stays driven, and a drive of RW puts it low. -/
theorem follow_sampleDefined {L : Lines LineVal} (h : SampleDefined (sampleOf L)) {e : Event} (he : e ≠ .wr .rw .high) :
    SampleDefined (sampleOf (follow L e)) := by
  obtain ⟨hrw, hdriven⟩ := (sampleDefined_iff L).mp h
  refine (sampleDefined_iff _).mpr ⟨?_, fun l hl => follow_keeps_driven (hdriven l hl) e⟩
  have driven : (follow L e).rw ≠ .x := follow_keeps_driven (hdriven .rw nofun) e
  have written : (follow L e).rw ≠ .high := follow_rw_ne_high (by simp [hrw]) he
  cases hv : (follow L e).rw with
  | low => rfl
  | x => exact absurd hv driven
  | high => exact absurd hv written

/-- One event latches the lines before it, or nothing (R42). -/
theorem eq_sampleOf_of_mem_latchedFrom {L : Lines LineVal} {e : Event} {p : Sample} (h : p ∈ latchedFrom L [e]) :
    p = sampleOf L := by
  unfold latchedFrom at h
  split at h
  · exact List.mem_singleton.mp h
  · cases h

theorem applyMicro_samplingInv (s : State) (m : Micro) (h : SamplingInv s) (ha : Allowed m.event s)
    (he : m.event ≠ .wr .rw .high) : SamplingInv (applyMicro s m) := by
  obtain ⟨hinv, hnow, hpast⟩ := h
  refine ⟨applyMicro_recordInv s m hinv ha he, ?_, fun p hp => ?_⟩
  · rw [applyMicro_line, effect_line_of_recordInv hinv]
    exact follow_sampleDefined hnow he
  · rw [applyMicro_trace, latched_append, List.mem_append] at hp
    rcases hp with hp | hp
    · exact hpast p hp
    · rw [eq_sampleOf_of_mem_latchedFrom hp, ← show s.line = levelsAfter s.trace from hinv.1]
      exact hnow

/-- A frame is latched as levels, whatever stood on the lines but RW (R77). -/
theorem nibbleSample_defined {L : Lines LineVal} (hrw : L.rw = .low) (v : Level) (n : Byte) :
    SampleDefined (nibbleSample { L with rs := v.val } n) := by
  have level (bit : Bool) : bitVal bit ≠ .x := by cases bit <;> exact nofun
  have rs : v.val ≠ .x := by cases v <;> exact nofun
  exact ⟨rs, hrw, level _, level _, level _, level _⟩

theorem latchedFrom_frames_defined {L : Lines LineVal} (hrw : L.rw = .low) (c : Config) (fs : List Frame) :
    ∀ p ∈ latchedFrom L (fs.flatMap (frameEvents c.tEnMs)), SampleDefined p := by
  induction fs generalizing L with
  | nil => simp [latchedFrom]
  | cons f fs ih =>
    intro p hp
    rw [List.flatMap_cons, latchedFrom_append, latchedFrom_frameEvents, foldl_follow_frameEvents, List.mem_append] at hp
    rcases hp with hp | hp
    · simp only [List.mem_cons, List.not_mem_nil, or_false] at hp
      rcases hp with rfl | rfl <;> exact nibbleSample_defined hrw f.rs _
    · exact ih (L := linesAfter L f) hrw p hp

/-- What each event keeps, an instruction keeps. -/
theorem exec_keeps {P : State → Prop}
    (keep : ∀ u m, P u → Allowed m.event u → m.event ≠ .wr .rw .high → P (applyMicro u m)) {i : Instr} {s t : State}
    (hs : P s) (h : exec i s = .next t) : P t := by
  obtain ⟨-, -, -, hrun, rfl⟩ := exec_eq_next.mp h
  exact applyAll_keeps keep (fun m hm => ⟨i, hm⟩) hrun hs

theorem runAll_samplingInv {is : List Instr} {s t : State} (hs : SamplingInv s) (h : runAll is s = .next t) :
    SamplingInv t := by
  induction is generalizing s with
  | nil =>
    cases h
    exact hs
  | cons i is ih =>
    obtain ⟨u, hu, hrest⟩ := andThen_eq_next.mp h
    exact ih (exec_keeps applyMicro_samplingInv hs hu) hrest

/-- `init` at reset shows the controller levels only: nothing is latched before RW is low and a frame has driven RS. -/
theorem init_samplingInv {t : State} (h : exec .init State.reset = .next t) : SamplingInv t := by
  obtain ⟨es, -, -, result⟩ := initResult State.reset ⟨rfl, rfl⟩
  have trace : t.trace = operationEvents 1 .init := exec_trace h
  refine ⟨exec_keeps applyMicro_recordInv resetMeetsRecordInv h, ?_, ?_⟩
  · rw [result] at h
    cases h
    exact (sampleDefined_iff _).mpr ⟨rfl, fun l _ => by cases l <;> exact nofun⟩
  · rw [trace, latched, operationEvents_init, latchedFrom_append, latchedFrom_initPrelude, foldl_follow_initPrelude]
    exact latchedFrom_frames_defined rfl { tEnMs := 1 } handshake

/-- Settles O52: every event keeps the invariant, `init` brings it about at reset, and so every program after it has it. -/
theorem samplesAreDefinedAfterInit : Obligations.SamplesAreDefinedAfterInit := by
  refine ⟨fun s t hs h => ?_, ?_, fun is t h => ?_⟩
  · obtain ⟨ms, q, p, hplan, hrun, rfl⟩ := step_effects h
    exact applyAll_keeps (P := SamplingInv) applyMicro_samplingInv hplan hrun hs
  · have run := exec_init (s := State.reset) ⟨rfl, rfl⟩
    exact ⟨_, run, init_samplingInv run⟩
  · obtain ⟨u, hu, hrest⟩ := andThen_eq_next.mp h
    exact runAll_samplingInv (init_samplingInv hu) hrest

end Sys2Proof.Proofs
end

section
/-! SUPPORT. Frame words, frame rows and the public operations: what each sends, and when it is refused before any event
(30_encoding.md R54, R55, R60, R62; 41_text.md R68; 42_cursor.md R70 to R72; 43_glyph.md R73; 45_nibble_strobe.md R78). -/

namespace Sys2Proof.Proofs

open Sys2Proof.Machine Sys2Proof.Safety Sys2Proof.Claims Sys2Proof.Laws

/-! ## Frame words -/

/-- A word that fits a row has the row's bits wherever the row fixes them. -/
theorem bit_of_fits {row : FrameRow} {w : BitVec 9} (h : row.fits w = true) {i : Nat}
    (hi : row.mask.getLsbD i = true) : w.getLsbD i = row.pattern.getLsbD i := by
  rw [← fits_iff.mp h, BitVec.getLsbD_and, hi, Bool.and_true]

/-- A row without a field is fitted by its pattern only. -/
theorem eq_pattern_of_fits {p w : BitVec 9} (h : FrameRow.fits ⟨0x1FF#9, p⟩ w = true) : w = p :=
  BitVec.and_allOnes.symm.trans (fits_iff.mp h)

/-- The byte of a word of FRAME.SETCGRAM is the command byte of its slot field. -/
theorem setCgramByte_field {w : BitVec 9} (h : rowSetCgram.fits w = true) :
    setCgramByte (w.extractLsb' 3 3) = w.extractLsb' 0 8 := by
  apply BitVec.eq_of_getLsbD_eq
  intro i hi
  have fixed : rowSetCgram.mask.getLsbD i = true → w.getLsbD i = rowSetCgram.pattern.getLsbD i := bit_of_fits h
  simp only [setCgramByte, BitVec.getLsbD_or, BitVec.getLsbD_shiftLeft, BitVec.getLsbD_setWidth,
    BitVec.getLsbD_extractLsb', Nat.zero_add]
  revert fixed
  interval_cases i <;> simp +contextual [rowSetCgram]

/-- The byte of a word of FRAME.SETDDRAM is the command byte of its address field. -/
theorem setDdramByte_field {w : BitVec 9} (h : rowSetDdram.fits w = true) :
    setDdramByte (w.extractLsb' 0 7) = w.extractLsb' 0 8 := by
  apply BitVec.eq_of_getLsbD_eq
  intro i hi
  have fixed : rowSetDdram.mask.getLsbD i = true → w.getLsbD i = rowSetDdram.pattern.getLsbD i := bit_of_fits h
  simp only [setDdramByte, BitVec.getLsbD_or, BitVec.getLsbD_setWidth, BitVec.getLsbD_extractLsb', Nat.zero_add]
  revert fixed
  interval_cases i <;> simp +contextual [rowSetDdram]

/-- Every word with bit 8 set is a data word. -/
theorem rowData_fits {w : BitVec 9} (h : w.getLsbD 8 = true) : rowData.fits w = true :=
  fits_iff.mpr ((BitVec.and_twoPow w 8).trans (if_pos h))

/-- The frame of a frame word has the RS level of bit 8 and the byte of bits 7 to 0 (R51), row by row. -/
theorem framesOf_decodeFrame (w : BitVec 9) :
    framesOf (decodeFrame w) = some [⟨bitLevel (w.getLsbD 8), w.extractLsb' 0 8⟩] := by
  unfold decodeFrame
  split_ifs with wake33 wake32 funcset clear dispon entry cgram ddram data
  · rw [eq_pattern_of_fits wake33]
    rfl
  · rw [eq_pattern_of_fits wake32]
    rfl
  · rw [eq_pattern_of_fits funcset]
    rfl
  · rw [eq_pattern_of_fits clear]
    rfl
  · rw [eq_pattern_of_fits dispon]
    rfl
  · rw [eq_pattern_of_fits entry]
    rfl
  · rw [framesOf, setCgramByte_field cgram, bit_of_fits (i := 8) cgram rfl]
    rfl
  · rw [framesOf, setDdramByte_field ddram, bit_of_fits (i := 8) ddram rfl]
    rfl
  · rw [framesOf, bit_of_fits (i := 8) data rfl]
    rfl
  · have command : w.getLsbD 8 = false := Bool.eq_false_of_not_eq_true fun h => data (rowData_fits h)
    rw [framesOf, command]
    rfl

/-- Settles O2, from the frame that the decoded instruction sends. -/
theorem everyFrameWordSendsItsOwnFrame : Obligations.EveryFrameWordSendsItsOwnFrame :=
  fun w _ hs hc => ⟨decodeFrame w, rfl, exec_sends (framesOf_decodeFrame w) hs hc⟩

/-- Settles O35: the rows are operations of whole frames, and each sends the frame of its byte. -/
theorem frameRowsSendTheirByte : Obligations.FrameRowsSendTheirByte := by
  intro s hs hc
  have row (i : Instr) (hi : i ≠ .init) (hk : keepsPairing i = true) (hw : WellFormed i = true) :
      exec i s = .next (sent s (framesSent i)) := exec_framesSent hi hk hw hs hc
  exact ⟨row .frameWake33 nofun rfl rfl, row .frameWake32 nofun rfl rfl, row .frameFuncset nofun rfl rfl,
    row .frameClear nofun rfl rfl, row .frameDispon nofun rfl rfl, row .frameEntry nofun rfl rfl,
    fun k => row (.frameSetCgram k) nofun rfl rfl, fun a => row (.frameSetDdram a) nofun rfl rfl,
    fun d => row (.frameData d) nofun rfl rfl⟩

/-! ## Text and cursor -/

/-- Settles O37: the empty text sends no frame, and needs no line. -/
theorem writeStringSendsEachCharacter : Obligations.WriteStringSendsEachCharacter := by
  intro s text hs hc
  cases text with
  | nil => exact exec_of_no_frames rfl hs
  | cons b text => exact exec_framesSent (i := .writeString (b :: text)) nofun rfl rfl hs (hc nofun)

/-- Settles O41: the clear command is a frame of its own, and moves the ghost. -/
theorem clearDisplayResult : Obligations.ClearDisplayResult :=
  fun _ hs hc => ⟨_, rfl, exec_framesSent (i := .clearDisplay) nofun rfl rfl hs hc, rfl⟩

theorem cellOk_of_fits {x y : Byte} (hy : y.toNat ≤ 3) (hsum : base y + x.toNat ≤ 0x7F) :
    WellFormed.cellOk x y = true := by
  simp [WellFormed.cellOk, cellAddress_fits hy hsum]

theorem cellOk_of_noRow {x y : Byte} (hy : 4 ≤ y.toNat) : WellFormed.cellOk x y = true := by
  simp [WellFormed.cellOk, cellAddress_noRow hy]

theorem addressing_of_row {x y : Byte} (hy : y.toNat ≤ 3) : addressing x y = [cmd (cellByte x y)] := if_pos hy

theorem addressing_of_noRow {x y : Byte} (hy : 4 ≤ y.toNat) : addressing x y = [] := if_neg (by omega)

/-- A cell's command byte is from 0x80 up, so it moves the ghost to DDRAM (R26, R55). -/
theorem ghostAfter_cell {x y : Byte} (hsum : base y + x.toNat ≤ 0x7F) (a : Aptr) :
    ghostAfter (cmd (cellByte x y)) a = .ddram := by
  have range : (cellByte x y).toNat = 0x80 + base y + x.toNat := by
    rw [cellByte, BitVec.toNat_ofNat]
    omega
  have high : 0x80 ≤ (cellByte x y).toNat := by omega
  simp [ghostAfter, cmd, rsCmd, high]

/-- Settles O42: the cell's address fits, so `gotoxy` sends the frame of its byte. -/
theorem gotoxySendsBasePlusColumn : Obligations.GotoxySendsBasePlusColumn := by
  intro s x y hs hc hy hsum
  have run := exec_framesSent (i := .gotoxy x y) nofun rfl (cellOk_of_fits hy hsum) hs hc
  rw [framesSent, addressing_of_row hy] at run
  exact ⟨_, rfl, run, ghostAfter_cell hsum s.aptr⟩

/-- Settles O43: without a row there is no addressing frame, and the data frame is what is left. -/
theorem invalidRowsAreDropped : Obligations.InvalidRowsAreDropped := by
  intro s x y slot hs hy
  refine ⟨exec_of_no_frames ?_ hs, exec_of_no_frames rfl hs, fun hc => ⟨?_, ?_⟩⟩
  · rw [framesOf, cellAddress_noRow hy]
  · have run := exec_framesSent (i := .clearXY x y) nofun rfl (cellOk_of_noRow hy) hs hc
    rwa [framesSent, addressing_of_noRow hy] at run
  · have run := exec_framesSent (i := .writeCustomChar x y slot) nofun rfl (cellOk_of_noRow hy) hs hc
    rwa [framesSent, addressing_of_noRow hy] at run

/-- Settles O44: the addressing frame of the cell, then the data frame. -/
theorem cellWritesAddressThenWrite : Obligations.CellWritesAddressThenWrite := by
  intro s x y slot hs hc hy hsum
  constructor
  · have run := exec_framesSent (i := .clearXY x y) nofun rfl (cellOk_of_fits hy hsum) hs hc
    rwa [framesSent, addressing_of_row hy] at run
  · have run := exec_framesSent (i := .writeCustomChar x y slot) nofun rfl (cellOk_of_fits hy hsum) hs hc
    rwa [framesSent, addressing_of_row hy] at run

/-! ## Refused before the first event -/

/-- Where a plan is nothing but a refusal, the state left stands at the operation's first event (R87, R89). -/
theorem exec_of_refusing {i : Instr} {s : State} {r : Reason} (hs : Ready s) (h : planOf s.config i = .refusing r) :
    exec i s = .refused (.refuse r { s with seq := .busy i 0, refused := some r }) := by
  obtain ⟨hidle, hgood⟩ := hs
  rw [exec_eq_perform, h, perform_of_ready hidle hgood]
  rfl

theorem gotoxyPlan_overflow {x y : Byte} (c : Config) (hy : y.toNat ≤ 3) (hsum : 0x7F < base y + x.toNat) :
    gotoxyPlan c x y = .refusing (.ddramAddressOverflow x y) := by
  rw [gotoxyPlan, cellAddress_overflow hy hsum]

theorem refusing_followedBy (r : Reason) (q : Plan) : (Plan.refusing r).followedBy q = .refusing r := rfl

/-- Settles O45: the refusal of `gotoxy` ends the two cell writes before their data frame. -/
theorem addressOverflowIsRefused : Obligations.AddressOverflowIsRefused := by
  intro s x y slot hs hy hsum
  refine ⟨exec_of_refusing hs ?_, exec_of_refusing hs ?_, exec_of_refusing hs ?_⟩
  · exact gotoxyPlan_overflow s.config hy hsum
  · rw [planOf, clearXYPlan, gotoxyPlan_overflow s.config hy hsum, refusing_followedBy]
  · rw [planOf, writeCustomCharPlan, gotoxyPlan_overflow s.config hy hsum, refusing_followedBy]

/-- Settles O32: the bit count is looked at before any drive. -/
theorem bitCountAboveFourIsRefused : Obligations.BitCountAboveFourIsRefused :=
  fun _ _ _ hs hc => exec_of_refusing hs (transferNibblePlan_refusing hc)

end Sys2Proof.Proofs
end

section
/-! SUPPORT. What the operations other than `init` leave alone, a lone nibble transfer, the enable line, and the ghost
(10_state.md R13 to R17, R26; 45_nibble_strobe.md R78). -/

namespace Sys2Proof.Proofs

open Sys2Proof.Machine Sys2Proof.Safety Sys2Proof.Claims Sys2Proof.Laws

/-! ## Events that configure nothing -/

/-- Without a `CFG` the marks stay. -/
theorem applyAll_configured_of_no_cfg {ms : List Micro} (h : ∀ m ∈ ms, ∀ l, m.event ≠ .cfg l) (s : State) :
    (applyAll s ms).configured = s.configured := by
  induction ms generalizing s with
  | nil => rfl
  | cons m ms ih =>
    have one : (effect m.event s).configured = s.configured := by
      cases he : m.event with
      | cfg l => exact absurd he (h m (by simp) l)
      | wr l v => rfl
      | dly n => rfl
    rw [applyAll_cons, ih (fun n hn => h n (by simp [hn])), applyMicro_configured, one]

/-- Without a `CFG` the latches change as the observer sees it, from every state (R41). -/
theorem applyAll_line_of_no_cfg {ms : List Micro} (h : ∀ m ∈ ms, ∀ l, m.event ≠ .cfg l) (s : State) :
    (applyAll s ms).line = (ms.map Micro.event).foldl follow s.line := by
  induction ms generalizing s with
  | nil => rfl
  | cons m ms ih =>
    have one : (effect m.event s).line = follow s.line m.event := by
      cases he : m.event with
      | cfg l => exact absurd he (h m (by simp) l)
      | wr l v => rfl
      | dly n => rfl
    rw [applyAll_cons, ih (fun n hn => h n (by simp [hn])), applyMicro_line, one]
    rfl

/-- An operation other than `init` drives lines other than RW and delays, and does nothing else (R13, R15, R16). -/
theorem planOf_event_of_ne_init {c : Config} {i : Instr} (hi : i ≠ .init) {m : Micro} (h : m ∈ (planOf c i).steps) :
    (∃ l v, m.event = .wr l v ∧ l ≠ .rw) ∨ m.event = .dly c.tEnMs :=
  (planOf_event h).resolve_left fun hinit => hi hinit.1

theorem planOf_no_cfg {c : Config} {i : Instr} (hi : i ≠ .init) : ∀ m ∈ (planOf c i).steps, ∀ l, m.event ≠ .cfg l := by
  intro m hm l
  obtain ⟨k, v, he, -⟩ | he := planOf_event_of_ne_init hi hm
  all_goals simp [he]

/-- Events that do not drive RW leave it. -/
theorem foldl_follow_rw {es : List Event} (h : ∀ v, .wr .rw v ∉ es) (L : Lines LineVal) : (es.foldl follow L).rw = L.rw := by
  induction es generalizing L with
  | nil => rfl
  | cons e es ih =>
    have one : (follow L e).rw = L.rw := by
      cases e with
      | wr l v => exact lineGet_lineSet_ne (k := .rw) L v.val (by rintro rfl; exact h v (by simp))
      | _ => rfl
    rw [List.foldl_cons, ih (fun v hv => h v (by simp [hv])), one]

/-- Settles O22: by the events of the plan, and for `init` by the state it leaves. -/
theorem onlyInitConfiguresAndDrivesRw : Obligations.OnlyInitConfiguresAndDrivesRw := by
  intro i s t h
  refine ⟨fun hi => ?_, ?_⟩
  · obtain ⟨-, -, -, -, rfl⟩ := exec_eq_next.mp h
    have quiet := planOf_no_cfg (c := s.config) hi
    refine ⟨applyAll_configured_of_no_cfg quiet s, ?_⟩
    rw [applyAll_line_of_no_cfg quiet]
    refine foldl_follow_rw (fun v hv => ?_) s.line
    obtain ⟨m, hm, he⟩ := List.mem_map.mp hv
    obtain ⟨k, w, he', hk⟩ | he' := planOf_event_of_ne_init hi hm
    · rw [he, Event.wr.injEq] at he'
      exact hk he'.1.symm
    · rw [he] at he'
      cases he'
  · rintro rfl
    obtain ⟨hidle, hgood, -⟩ := exec_eq_next.mp h
    rw [exec_init ⟨hidle, hgood⟩, Host.Outcome.next.injEq] at h
    subst h
    exact ⟨fun l => by rw [sent_configured, initPrelude_configured], by rw [sent_rw, initPrelude_rw]⟩

/-! ## A lone nibble transfer -/

theorem nibbleSteps_no_cfg {c : Config} {n : Byte} {count : Nat} :
    ∀ m ∈ nibbleSteps c n count, ∀ l, m.event ≠ .cfg l := by
  intro m hm l
  obtain ⟨k, v, he, -⟩ | he := nibbleSteps_event hm
  all_goals simp [he]

theorem nibbleSteps_no_end {c : Config} {n : Byte} {count : Nat} : ∀ m ∈ nibbleSteps c n count, m.ends = none := by
  intro m hm
  simp only [nibbleSteps, List.mem_append, List.mem_map, List.mem_cons, List.not_mem_nil, or_false] at hm
  rcases hm with ⟨d, -, rfl⟩ | rfl | rfl | rfl <;> rfl

/-- A nibble transfer can be issued when EN and the data lines it drives are configured (R15, R78). -/
theorem runnable_nibbleSteps {c : Config} {n : Byte} {count : Nat} {s : State} (hen : s.configured.en = true)
    (hdata : ∀ d ∈ dataLines.take count, lineGet s.configured d.2 = true) : Runnable (nibbleSteps c n count) s := by
  refine runnable_of_configured fun m hm l v he => ?_
  simp only [nibbleSteps, List.mem_append, List.mem_map, List.mem_cons, List.not_mem_nil, or_false] at hm
  rcases hm with ⟨d, hd, rfl⟩ | rfl | rfl | rfl <;> cases he
  · exact hdata d hd
  · exact hen
  · exact hen

/-- The lines after a nibble transfer: the first `count` data lines at the bits, EN low (R53, R78). -/
theorem foldl_follow_nibble (L : Lines LineVal) (T : Nat) (n : Byte) {count : Nat} (h : count ≤ 4) :
    ((nibbleEvents T n).take count ++ strobeEvents T).foldl follow L = { L with
      en := .low
      d0 := if 1 ≤ count then bitVal (n.getLsbD 0) else L.d0
      d1 := if 2 ≤ count then bitVal (n.getLsbD 1) else L.d1
      d2 := if 3 ≤ count then bitVal (n.getLsbD 2) else L.d2
      d3 := if 4 ≤ count then bitVal (n.getLsbD 3) else L.d3 } := by
  simp only [← bitLevel_val]
  interval_cases count <;> rfl

/-- Settles O31: the plan of a lone transfer can be issued, and its effect is that of its events. -/
theorem nibbleImageOnDataLines : Obligations.NibbleImageOnDataLines := by
  rintro s n c ⟨hidle, hgood⟩ hc hen h0 h1 h2 h3
  have hdata : ∀ d ∈ dataLines.take c.toNat, lineGet s.configured d.2 = true := by
    intro d hd
    have index := index_lt_of_mem_take hd
    have line := List.mem_of_mem_take hd
    simp only [dataLines, List.mem_cons, List.not_mem_nil, or_false] at line
    rcases line with rfl | rfl | rfl | rfl
    · exact h0 index
    · exact h1 index
    · exact h2 index
    · exact h3 index
  rw [exec_eq_next, show planOf s.config (.transferNibble n c) = _ from transferNibblePlan_eq hc]
  refine ⟨hidle, hgood, rfl, runnable_nibbleSteps hen hdata, state_ext ?_ ?_ ?_ ?_ ?_ ?_ ?_ ?_⟩
  · rw [applyAll_config]
  · rw [applyAll_line_of_no_cfg nibbleSteps_no_cfg, nibbleSteps_events _ _ hc, foldl_follow_nibble _ _ _ hc]
  · rw [applyAll_configured_of_no_cfg nibbleSteps_no_cfg]
  · rw [applyAll_seq]
  · rw [applyAll_trace, nibbleSteps_events _ _ hc, ← List.append_assoc]
    rfl
  · rw [applyAll_aptr_of_no_end nibbleSteps_no_end]
  · rw [applyAll_refused]
  · rw [applyAll_port]

/-! ## The enable line -/

/-- A plan is empty or ends with EN low: it ends with a strobe (R17, R79). -/
theorem planOf_ends_with_en_low (c : Config) (i : Instr) :
    (planOf c i).steps = [] ∨ ∃ ms o, (planOf c i).steps = ms ++ [⟨.wr .en .low, o⟩] := by
  have frames (fs : List Frame) : framesSteps c fs = [] ∨ ∃ ms o, framesSteps c fs = ms ++ [⟨.wr .en .low, o⟩] := by
    rcases List.eq_nil_or_concat fs with rfl | ⟨gs, f, rfl⟩
    · exact .inl rfl
    · refine .inr ⟨framesSteps c gs ++ (frameSteps c f.rs f.byte).take 14, some f, ?_⟩
      simp [framesSteps, frameSteps]
  obtain ⟨fs, -, hp⟩ | ⟨-, hp⟩ | ⟨n, k, -, -, hp⟩ | ⟨-, r, hp⟩ := planOf_shape c i
  · rw [hp]
    exact frames fs
  · obtain hnil | ⟨ms, o, heq⟩ := frames initFrames
    · cases hnil
    · exact .inr ⟨initPrelude ++ ms, o, by rw [hp, heq, List.append_assoc]⟩
  · exact .inr ⟨((dataLines.take k.toNat).map fun d => ⟨.wr d.2 (lv (n.getLsbD d.1)), none⟩) ++
        [⟨.wr .en .high, none⟩, ⟨.dly c.tEnMs, none⟩], none, by simp [hp, nibbleSteps]⟩
  · exact .inl (by rw [hp])

/-- Settles O23: by the last event of the plan. -/
theorem enableIsLowAfterEveryOperation : Obligations.EnableIsLowAfterEveryOperation := by
  intro i s t h
  obtain ⟨-, -, -, -, rfl⟩ := exec_eq_next.mp h
  obtain hnil | ⟨ms, o, heq⟩ := planOf_ends_with_en_low s.config i
  · simp [hnil]
  · rw [heq]
    refine ⟨fun _ => ?_, fun htrace => ?_⟩
    · rw [applyAll_append, applyAll_cons, applyAll_nil, applyMicro_line]
      rfl
    · simp at htrace

/-! ## The ghost -/

/-- The events of an operation do not look at the ghost (R26). -/
theorem applyAll_withAptr (s : State) (a : Aptr) (ms : List Micro) :
    ∃ a', applyAll (s.withAptr a) ms = (applyAll s ms).withAptr a' := by
  induction ms generalizing s a with
  | nil => exact ⟨a, rfl⟩
  | cons m ms ih =>
    obtain ⟨b, hb⟩ : ∃ b, applyMicro (s.withAptr a) m = (applyMicro s m).withAptr b := by
      obtain ⟨e, o⟩ := m
      cases e <;> cases o <;> exact ⟨_, rfl⟩
    rw [applyAll_cons, hb]
    exact ih _ b

theorem runnable_withAptr {s : State} {a : Aptr} {ms : List Micro} (h : Runnable ms s) : Runnable ms (s.withAptr a) := by
  induction ms generalizing s a with
  | nil => trivial
  | cons m ms ih =>
    obtain ⟨ha, hrun⟩ := h
    obtain ⟨b, hb⟩ := applyAll_withAptr s a [m]
    refine ⟨ha, ?_⟩
    rw [show applyMicro (s.withAptr a) m = _ from hb]
    exact ih hrun

/-- Settles O20: whether an operation completes, and with which events, is not asked of the ghost. -/
theorem ghostInfluencesNothing : Obligations.GhostInfluencesNothing := by
  intro i s t a h
  obtain ⟨hidle, hgood, hstop, hrun, rfl⟩ := exec_eq_next.mp h
  obtain ⟨a', ha'⟩ := applyAll_withAptr s a (planOf s.config i).steps
  exact ⟨a', exec_eq_next.mpr ⟨hidle, hgood, hstop, runnable_withAptr hrun, ha'.symm⟩⟩

/-- A command frame that addresses CGRAM (the table of R26). -/
def SelectsCgram (f : Frame) : Prop := f.rs = rsCmd ∧ 0x40 ≤ f.byte.toNat ∧ f.byte.toNat < 0x80

/-- A frame brings the ghost to CGRAM only by addressing it. -/
theorem ghostAfter_eq_cgram {f : Frame} {a : Aptr} (h : ghostAfter f a = .cgram) : a = .cgram ∨ SelectsCgram f := by
  unfold ghostAfter at h
  split_ifs at h with hrs hclear hhigh hcgram
  · exact .inr ⟨hrs, hcgram, by omega⟩
  · exact .inl h
  · exact .inl h

theorem sent_aptr_eq_cgram {s : State} {fs : List Frame} (h : (sent s fs).aptr = .cgram) :
    s.aptr = .cgram ∨ ∃ f ∈ fs, SelectsCgram f := by
  induction fs generalizing s with
  | nil => exact .inl h
  | cons f fs ih =>
    obtain hfirst | ⟨g, hg, hsel⟩ := ih h
    · exact (ghostAfter_eq_cgram hfirst).imp_right fun hsel => ⟨f, by simp, hsel⟩
    · exact .inr ⟨g, by simp [hg], hsel⟩

theorem not_selectsCgram_data (b : Byte) : ¬ SelectsCgram ⟨rsData, b⟩ := by
  rintro ⟨hrs, -⟩
  cases hrs

theorem not_selectsCgram_setDdram (a : BitVec 7) : ¬ SelectsCgram ⟨rsCmd, setDdramByte a⟩ := by
  rintro ⟨-, -, hb⟩
  have ha : a.toNat < 128 := a.isLt
  simp only [setDdramByte_eq, BitVec.toNat_ofNat] at hb
  omega

theorem not_selectsCgram_addressing {x y : Byte} (hcell : WellFormed.cellOk x y = true) {f : Frame}
    (h : f ∈ addressing x y) : ¬ SelectsCgram f := by
  obtain ⟨-, ha⟩ | ⟨a, -, ha⟩ | hc := cellAddress_cases x y
  · simp [ha] at h
  · rw [ha, List.mem_singleton] at h
    rw [h]
    exact not_selectsCgram_setDdram a
  · simp [WellFormed.cellOk, hc] at hcell

theorem not_selectsCgram_cellWrite {x y b : Byte} (hcell : WellFormed.cellOk x y = true) {f : Frame}
    (h : f ∈ addressing x y ++ [dat b]) : ¬ SelectsCgram f := by
  rcases List.mem_append.mp h with h | h
  · exact not_selectsCgram_addressing hcell h
  · rw [List.mem_singleton.mp h]
    exact not_selectsCgram_data b

/-- The instructions that send a frame which addresses CGRAM (R26, R99). -/
theorem framesOf_selectsCgram {i : Instr} {fs : List Frame} (hf : framesOf i = some fs) {f : Frame} (hmem : f ∈ fs)
    (hsel : SelectsCgram f) :
    (∃ slot data, i = .createCustomChar slot data) ∨ (∃ k, i = .frameSetCgram k) ∨
      ∃ b, i = .writeCommand b ∧ 0x40 ≤ b.toNat ∧ b.toNat < 0x80 := by
  cases i with
  | init => cases hf
  | transferNibble n k => cases hf
  | createCustomChar slot data => exact .inl ⟨slot, data, rfl⟩
  | frameSetCgram k => exact .inr (.inl ⟨k, rfl⟩)
  | writeCommand b =>
    cases hf
    obtain rfl := List.mem_singleton.mp hmem
    exact .inr (.inr ⟨b, rfl, hsel.2⟩)
  | writeString text =>
    cases hf
    obtain ⟨b, -, rfl⟩ := List.mem_map.mp hmem
    exact absurd hsel (not_selectsCgram_data b)
  | writeInt number =>
    cases hf
    obtain ⟨b, -, rfl⟩ := List.mem_map.mp hmem
    exact absurd hsel (not_selectsCgram_data b)
  | writeData b | frameData b =>
    cases hf
    obtain rfl := List.mem_singleton.mp hmem
    exact absurd hsel (not_selectsCgram_data b)
  | frameSetDdram a =>
    cases hf
    obtain rfl := List.mem_singleton.mp hmem
    exact absurd hsel (not_selectsCgram_setDdram a)
  | gotoxy x y =>
    have hcell : WellFormed.cellOk x y = true := wellFormed_of_framesOf hf
    obtain ⟨rfl, -⟩ := framesSent_of_framesOf hf
    exact absurd hsel (not_selectsCgram_addressing hcell hmem)
  | writeCustomChar x y slot =>
    have hcell : WellFormed.cellOk x y = true := wellFormed_of_framesOf hf
    obtain ⟨rfl, -⟩ := framesSent_of_framesOf hf
    exact absurd hsel (not_selectsCgram_cellWrite hcell hmem)
  | clearXY x y =>
    have hcell : WellFormed.cellOk x y = true := wellFormed_of_framesOf hf
    obtain ⟨rfl, -⟩ := framesSent_of_framesOf hf
    exact absurd hsel (not_selectsCgram_cellWrite hcell hmem)
  | _ =>
    cases hf
    obtain rfl := List.mem_singleton.mp hmem
    obtain ⟨-, hlow, -⟩ := hsel
    exact absurd hlow (by decide)

theorem exec_next_sent {i : Instr} {s t : State} {fs : List Frame} (hf : framesOf i = some fs) (h : exec i s = .next t) :
    t = sent s fs := by
  obtain ⟨-, -, -, -, rfl⟩ := exec_eq_next.mp h
  rw [planOf_of_framesOf hf, applyAll_framesSteps, sendFrames_eq_sent]

/-- Settles O26: by the shape of the plan. -/
theorem cgramIsSelectedOnlyByItsCommands : Obligations.CgramIsSelectedOnlyByItsCommands := by
  intro i s t h hcgram
  obtain ⟨fs, hf, -⟩ | ⟨rfl, -⟩ | ⟨n, k, -, -, hp⟩ | ⟨-, r, hp⟩ := planOf_shape s.config i
  · rw [exec_next_sent hf h] at hcgram
    exact (sent_aptr_eq_cgram hcgram).imp_right fun ⟨f, hmem, hsel⟩ => framesOf_selectsCgram hf hmem hsel
  · obtain ⟨hidle, hgood, -⟩ := exec_eq_next.mp h
    obtain ⟨es, -, -, result⟩ := initResult s ⟨hidle, hgood⟩
    rw [h] at result
    cases result
    cases hcgram
  · obtain ⟨-, -, -, -, rfl⟩ := exec_eq_next.mp h
    rw [hp, applyAll_aptr_of_no_end nibbleSteps_no_end] at hcgram
    exact .inl hcgram
  · obtain ⟨-, -, hstop, -⟩ := exec_eq_next.mp h
    simp [hp] at hstop

end Sys2Proof.Proofs
end

section
/-! SUPPORT. The strobes, the delays and the platform calls among the events of an operation (45_nibble_strobe.md R79;
60_exceptions.md R92; 70_reset_and_hazards.md R105). -/

namespace Sys2Proof.Proofs

open Sys2Proof.Machine Sys2Proof.Safety Sys2Proof.Claims Sys2Proof.Laws

/-- The nibble transfer of an operation that completes has a bit count of at most 4 (R78). -/
theorem bitCount_le_of_exec {n : Byte} {c : BitVec 3} {s t : State} (h : exec (.transferNibble n c) s = .next t) :
    c.toNat ≤ 4 := by
  obtain ⟨-, -, hstop, -⟩ := exec_eq_next.mp h
  by_contra hc
  rw [show planOf s.config (.transferNibble n c) = _ from transferNibblePlan_refusing (by omega)] at hstop
  cases hstop

/-- What holds of frames, of `init` and of nibble transfers of at most four bits holds of the events of every completed
operation. -/
theorem operationEvents_of_exec {P : Instr → List Event → Prop} {i : Instr} {s t : State} (h : exec i s = .next t)
    (frames : i ≠ .init → keepsPairing i = true → P i ((framesSent i).flatMap (frameEvents s.config.tEnMs)))
    (init : P .init (initPrelude.map Micro.event ++ handshake.flatMap (frameEvents s.config.tEnMs)))
    (nibble : ∀ n (c : BitVec 3), c.toNat ≤ 4 →
      P (.transferNibble n c) ((nibbleEvents s.config.tEnMs n).take c.toNat ++ strobeEvents s.config.tEnMs)) :
    P i (operationEvents s.config.tEnMs i) := by
  cases i with
  | init => exact init
  | transferNibble n c => exact nibble n c (bitCount_le_of_exec h)
  | _ => exact frames nofun rfl

/-! ## Strobes -/

/-- Every drive of EN and every delay of `es` is part of a strobe in `es`: EN high, one delay of `T`, EN low (R79, D2). -/
def Strobed (T : Nat) (es : List Event) : Prop :=
  ∀ k : Nat,
    (es[k]? = some (.wr .en .high) → es[k + 1]? = some (.dly T) ∧ es[k + 2]? = some (.wr .en .low)) ∧
    (∀ n, es[k]? = some (.dly n) → n = T ∧ 1 ≤ k ∧ es[k - 1]? = some (.wr .en .high)) ∧
    (es[k]? = some (.wr .en .low) → 2 ≤ k ∧ es[k - 2]? = some (.wr .en .high))

/-- The event neither drives EN nor delays. -/
def NoStrobe (e : Event) : Prop := (∀ v, e ≠ .wr .en v) ∧ ∀ n, e ≠ .dly n

theorem strobed_of_noStrobe {T : Nat} {es : List Event} (h : ∀ e ∈ es, NoStrobe e) : Strobed T es := by
  intro k
  refine ⟨fun hk => ?_, fun n hk => ?_, fun hk => ?_⟩
  · exact absurd rfl ((h _ (List.mem_of_getElem? hk)).1 .high)
  · exact absurd rfl ((h _ (List.mem_of_getElem? hk)).2 n)
  · exact absurd rfl ((h _ (List.mem_of_getElem? hk)).1 .low)

theorem strobed_strobe (T : Nat) : Strobed T (strobeEvents T) := by
  intro k
  match k with
  | 0 => simp [strobeEvents]
  | 1 => simp [strobeEvents, eq_comm]
  | 2 => simp [strobeEvents]
  | k + 3 => simp [strobeEvents]

theorem getElem?_append_of_eq_some {a b : List Event} {k : Nat} {e : Event} (h : a[k]? = some e) :
    (a ++ b)[k]? = some e := by
  obtain ⟨hk, -⟩ := List.getElem?_eq_some_iff.mp h
  rw [List.getElem?_append_left hk, h]

/-- A strobe does not cross the border of two lists that hold their strobes. -/
theorem strobed_append {T : Nat} {a b : List Event} (ha : Strobed T a) (hb : Strobed T b) : Strobed T (a ++ b) := by
  intro k
  by_cases hk : k < a.length
  · obtain ⟨high, delay, low⟩ := ha k
    rw [List.getElem?_append_left hk]
    refine ⟨fun h => ?_, fun n h => ?_, fun h => ?_⟩
    · exact (high h).imp getElem?_append_of_eq_some getElem?_append_of_eq_some
    · obtain ⟨hn, hpos, hprev⟩ := delay n h
      exact ⟨hn, hpos, getElem?_append_of_eq_some hprev⟩
    · exact (low h).imp_right getElem?_append_of_eq_some
  · obtain ⟨j, rfl⟩ := Nat.exists_eq_add_of_le (Nat.le_of_not_lt hk)
    obtain ⟨high, delay, low⟩ := hb j
    have shift (m : Nat) : (a ++ b)[a.length + m]? = b[m]? := by
      rw [List.getElem?_append_right (Nat.le_add_right _ _), Nat.add_sub_cancel_left]
    rw [Nat.add_assoc, Nat.add_assoc, shift, shift, shift]
    refine ⟨high, fun n h => ?_, fun h => ?_⟩
    · obtain ⟨hn, hpos, hprev⟩ := delay n h
      exact ⟨hn, by omega, by rwa [Nat.add_sub_assoc hpos, shift]⟩
    · obtain ⟨hpos, hprev⟩ := low h
      exact ⟨by omega, by rwa [Nat.add_sub_assoc hpos, shift]⟩

/-- The drives of a nibble transfer are of data lines, and its strobe follows them (R78). -/
theorem strobed_nibble (T : Nat) (n : Byte) {count : Nat} (h : count ≤ 4) :
    Strobed T ((nibbleEvents T n).take count ++ strobeEvents T) := by
  refine strobed_append (strobed_of_noStrobe fun e he => ?_) (strobed_strobe T)
  have drives : e ∈ (nibbleEvents T n).take 4 := List.take_subset_take_left _ h he
  simp only [nibbleEvents, List.take, List.mem_cons, List.not_mem_nil, or_false] at drives
  rcases drives with rfl | rfl | rfl | rfl <;> exact ⟨nofun, nofun⟩

theorem strobed_frames (c : Config) (fs : List Frame) : Strobed c.tEnMs (fs.flatMap (frameEvents c.tEnMs)) := by
  induction fs with
  | nil => exact strobed_of_noStrobe (by simp)
  | cons f fs ih =>
    have rs : Strobed c.tEnMs [.wr .rs f.rs] := strobed_of_noStrobe fun e he => by
      rw [List.mem_singleton.mp he]
      exact ⟨nofun, nofun⟩
    have nibble (n : Byte) : Strobed c.tEnMs (nibbleEvents c.tEnMs n) := strobed_nibble c.tEnMs n le_rfl
    rw [List.flatMap_cons, frameEvents_eq_nibbles]
    exact strobed_append (strobed_append rs (strobed_append (nibble _) (nibble _))) ih

/-- Settles O25: the new events are drives of other lines, `CFG`s and whole strobes. -/
theorem strobeIsThreeEventsInARow : Obligations.StrobeIsThreeEventsInARow := by
  intro i s t h
  refine ⟨_, exec_trace h, operationEvents_of_exec (P := fun _ es => Strobed s.config.tEnMs es) h ?_ ?_ ?_⟩
  · exact fun _ _ => strobed_frames s.config (framesSent i)
  · refine strobed_append (strobed_of_noStrobe fun e he => ?_) (strobed_frames s.config handshake)
    simp only [initPrelude, List.map, List.mem_cons, List.not_mem_nil, or_false] at he
    rcases he with rfl | rfl | rfl | rfl | rfl | rfl | rfl | rfl <;> exact ⟨nofun, nofun⟩
  · exact fun n c hc => strobed_nibble s.config.tEnMs n hc

/-! ## Delays -/

theorem count_dly_frames (T : Nat) (fs : List Frame) : (fs.flatMap (frameEvents T)).count (.dly T) = 2 * fs.length := by
  induction fs with
  | nil => rfl
  | cons f fs ih =>
    have one : (frameEvents T f).count (.dly T) = 2 := by simp [frameEvents]
    rw [List.flatMap_cons, List.count_append, ih, one, List.length_cons]
    omega

theorem count_dly_nibble (T : Nat) (n : Byte) {count : Nat} (h : count ≤ 4) :
    ((nibbleEvents T n).take count ++ strobeEvents T).count (.dly T) = 1 := by
  interval_cases count <;> simp [nibbleEvents, strobeEvents]

theorem addressing_length (x y : Byte) : (addressing x y).length = if y.toNat ≤ 3 then 1 else 0 := by
  rw [addressing]
  split <;> rfl

/-- A frame is two nibble transfers (R105, the column `N`). -/
theorem transfers_of_frames {i : Instr} (hi : i ≠ .init) (hk : keepsPairing i = true) :
    transfers i = 2 * (framesSent i).length := by
  cases i with
  | init => exact absurd rfl hi
  | transferNibble n k => cases hk
  | writeString text => simp [transfers, framesSent]
  | writeInt number => simp [transfers, framesSent]
  | gotoxy x y =>
    rw [transfers, framesSent, addressing_length]
    split <;> rfl
  | writeCustomChar x y slot | clearXY x y =>
    rw [transfers, framesSent, List.length_append, addressing_length]
    split <;> rfl
  | _ => rfl

/-- Where every delay is of `T`, the sum counts them (R105). -/
theorem delayTotal_eq_count {T : Nat} {es : List Event} (h : ∀ n, .dly n ∈ es → n = T) :
    delayTotal es = T * es.count (.dly T) := by
  induction es with
  | nil => rfl
  | cons e es ih =>
    have rest := ih fun n hn => h n (by simp [hn])
    cases e with
    | cfg l => simp [delayTotal, rest]
    | wr l v => simp [delayTotal, rest]
    | dly n =>
      obtain rfl := h n (by simp)
      rw [delayTotal, rest, List.count_cons_self]
      ring

/-- Settles O27: two delays for each frame and one for a lone nibble transfer, all of them of `T_EN_MS`. -/
theorem delayIsOncePerNibbleTransfer : Obligations.DelayIsOncePerNibbleTransfer := by
  intro i s t h
  have count : (operationEvents s.config.tEnMs i).count (.dly s.config.tEnMs) = transfers i := by
    refine operationEvents_of_exec (P := fun i es => es.count (.dly s.config.tEnMs) = transfers i) h ?_ ?_ ?_
    · exact fun hi hk => by rw [count_dly_frames, transfers_of_frames hi hk]
    · rw [List.count_append, count_dly_frames]
      rfl
    · exact fun n c hc => count_dly_nibble s.config.tEnMs n hc
  have uniform : ∀ n, .dly n ∈ operationEvents s.config.tEnMs i → n = s.config.tEnMs := by
    obtain ⟨-, -, hstop, -⟩ := exec_eq_next.mp h
    intro n hn
    rw [← planOf_events hstop] at hn
    obtain ⟨m, hm, he⟩ := List.mem_map.mp hn
    obtain ⟨-, ⟨l, he'⟩ | he'⟩ | ⟨l, v, he', -⟩ | he' := planOf_event hm
    all_goals rw [he] at he'
    all_goals cases he'
    rfl
  refine ⟨_, exec_trace h, count, uniform, ?_⟩
  rw [exec_trace h, delayTotal_append, delayTotal_eq_count uniform, count]

/-! ## Calls of the platform -/

theorem gpioCalls_frames (p : Platform) (T : Nat) (fs : List Frame) :
    (fs.flatMap (frameEvents T)).map (gpioCall p) = fs.flatMap (frameCalls p T) :=
  List.map_flatMap

theorem gpioCalls_nibble (p : Platform) (T : Nat) (n : Byte) {count : Nat} (h : count ≤ 4) :
    ((nibbleEvents T n).take count ++ strobeEvents T).map (gpioCall p) = nibbleCalls p T n count := by
  interval_cases count <;> rfl

/-- A completed operation has made the calls of its events (R92). -/
theorem exec_gpioCalls (p : Platform) {i : Instr} {s t : State} (h : exec i s = .next t) :
    gpioCalls p t = gpioCalls p s ++ (operationEvents s.config.tEnMs i).map (gpioCall p) :=
  gpioCalls_append (exec_trace h)

/-- Settles O28: the three kinds of operation complete, and each event is the call of its pin. -/
theorem operationsMakeTheirPlatformCalls : Obligations.OperationsMakeTheirPlatformCalls := by
  intro p s hs
  refine ⟨?_, fun hc i hi hk hw => ?_, fun hc n c hle => ?_⟩
  · have run := exec_init hs
    refine ⟨_, run, ?_⟩
    rw [exec_gpioCalls p run, operationEvents_init, List.map_append, gpioCalls_frames, ← List.append_assoc]
    rfl
  · have run := exec_framesSent hi hk hw hs hc
    refine ⟨_, run, ?_⟩
    rw [exec_gpioCalls p run, operationEvents_of_frames _ hi hk, gpioCalls_frames]
  · have run := nibbleImageOnDataLines s n c hs hle (hc .en nofun) (fun _ => hc .d0 nofun) (fun _ => hc .d1 nofun)
      (fun _ => hc .d2 nofun) (fun _ => hc .d3 nofun)
    refine ⟨_, run, ?_⟩
    rw [exec_gpioCalls p run, ← gpioCalls_nibble p _ n hle]
    rfl

/-! ## The pins of the controller -/

/-- Settles O29: a legal binding is distinct pins wired in index order, and a bound pin shows its line. -/
theorem dataLinesReachTheirControllerPins : Obligations.DataLinesReachTheirControllerPins := by
  intro p b
  have pin (hd : (boundPins p).Nodup) {q : Pin} {l : Line} (hq : q = lineGet p.binding l) :
      pinValue p b q = lineGet b l := by
    rw [hq, pinValue_of_binding hd]
  have legal : bindingLegal p = true ↔
      (boundPins p).Nodup ∧ p.wiring.d4 = p.binding.d0 ∧ p.wiring.d5 = p.binding.d1 ∧ p.wiring.d6 = p.binding.d2 ∧
        p.wiring.d7 = p.binding.d3 := by
    simp only [bindingLegal, wiringMatches, Bool.and_eq_true, decide_eq_true_eq]
    rw [← DataPins.mk.injEq]
  refine ⟨legal, fun h => ?_, fun hd l => ⟨pin hd, pin hd, pin hd, pin hd⟩⟩
  obtain ⟨hd, h4, h5, h6, h7⟩ := legal.mp h
  have d4 : pinValue p b p.wiring.d4 = b.d0 := pin hd (l := .d0) h4
  have d5 : pinValue p b p.wiring.d5 = b.d1 := pin hd (l := .d1) h5
  have d6 : pinValue p b p.wiring.d6 = b.d2 := pin hd (l := .d2) h6
  have d7 : pinValue p b p.wiring.d7 = b.d3 := pin hd (l := .d3) h7
  rw [received, d4, d5, d6, d7]

end Sys2Proof.Proofs
end

section
/-! SUPPORT. Operations as a whole: composed operations, completion of well-formed ones, and the refusal at the first line that is
not configured (30_encoding.md R64; 60_exceptions.md R84, R87, R89). -/

namespace Sys2Proof.Proofs

open Sys2Proof.Machine Sys2Proof.Safety Sys2Proof.Claims Sys2Proof.Laws

/-! ## Composed operations -/

theorem followedBy_stop_eq_none {p q : Plan} : (p.followedBy q).stop = none ↔ p.stop = none ∧ q.stop = none := by
  cases hp : p.stop <;> simp [Plan.followedBy, hp]

theorem runAll_singleton (i : Instr) (s : State) : runAll [i] s = exec i s := by
  rw [runAll]
  cases exec i s <;> rfl

/-- An operation whose plan is that of `j` and then that of `k` does what `j` and then `k` do. -/
theorem exec_eq_next_iff_runAll {i j k : Instr} {s t : State}
    (h : planOf s.config i = (planOf s.config j).followedBy (planOf s.config k)) :
    exec i s = .next t ↔ runAll [j, k] s = .next t := by
  rw [runAll, andThen_eq_next, exec_eq_next, h, followedBy_stop_eq_none]
  constructor
  · rintro ⟨hidle, hgood, ⟨hj, hk⟩, hrun, rfl⟩
    rw [followedBy_steps hj, runnable_append] at hrun
    refine ⟨_, exec_eq_next.mpr ⟨hidle, hgood, hj, hrun.1, rfl⟩, ?_⟩
    rw [runAll_singleton, exec_eq_next, applyAll_config, applyAll_seq, applyAll_refused, followedBy_steps hj]
    exact ⟨hidle, hgood, hk, hrun.2, applyAll_append s _ _⟩
  · rintro ⟨u, hu, ht⟩
    obtain ⟨hidle, hgood, hj, hrunj, rfl⟩ := exec_eq_next.mp hu
    rw [runAll_singleton, exec_eq_next, applyAll_config] at ht
    obtain ⟨-, -, hk, hrunk, rfl⟩ := ht
    rw [followedBy_steps hj, runnable_append, applyAll_append]
    exact ⟨hidle, hgood, ⟨hj, hk⟩, ⟨hrunj, hrunk⟩, rfl⟩

/-- Settles O48: the plan of each is that of its expansion. -/
theorem pseudoOperationsExpand : Obligations.PseudoOperationsExpand := by
  refine fun s t => ⟨?_, fun number => ?_, fun c cs => ?_, fun x y slot => ?_, fun x y => ?_, fun slot g => ?_⟩
  · exact exec_next_iff_of_planOf_eq rfl
  · exact exec_next_iff_of_planOf_eq rfl
  · exact exec_eq_next_iff_runAll rfl
  · exact exec_eq_next_iff_runAll rfl
  · exact exec_eq_next_iff_runAll rfl
  · rw [← setCgramByte_slotIndex]
    exact exec_eq_next_iff_runAll rfl

/-! ## Completion -/

theorem planOf_stop_of_wellFormed {i : Instr} (c : Config) (h : WellFormed i = true) : (planOf c i).stop = none := by
  obtain ⟨fs, -, hp⟩ | ⟨-, hp⟩ | ⟨n, k, -, -, hp⟩ | ⟨hw, -⟩ := planOf_shape c i
  · rw [hp]
  · rw [hp]
  · rw [hp]
  · rw [h] at hw
    cases hw

/-- Settles O49: a well-formed plan reaches no refusal of its own, and no drive in it is refused. -/
theorem wellFormedOperationsComplete : Obligations.WellFormedOperationsComplete := by
  intro i s hw hs hc
  have completes : ∃ t, exec i s = .next t := by
    by_cases hi : i = .init
    · subst hi
      exact ⟨_, exec_init hs⟩
    · obtain ⟨hidle, hgood⟩ := hs
      have all : AllConfigured s := hc.resolve_right hi
      exact ⟨_, exec_eq_next.mpr ⟨hidle, hgood, planOf_stop_of_wellFormed s.config hw,
        runnable_of_configured fun _ _ l _ _ => all l, rfl⟩⟩
  obtain ⟨t, h⟩ := completes
  obtain ⟨-, -, ready⟩ := operationsLeaveConfigurationAndPort i s t h
  obtain ⟨others, init⟩ := onlyInitConfiguresAndDrivesRw i s t h
  refine ⟨t, h, ready, ?_⟩
  by_cases hi : i = .init
  · exact (init hi).1
  · intro l
    rw [(others hi).1]
    exact hc.resolve_right hi l

/-! ## The first line that is not configured -/

/-- Events up to one whose line is not configured are issued, and the refusal is reached there (R87). -/
theorem runFrom_of_unconfigured {i : Instr} {stop : Option Reason} {upc : Nat} {ms ns : List Micro} {m : Micro}
    {s : State} {l : Line} {v : Level} (hrun : Runnable ms s) (he : m.event = .wr l v)
    (hl : lineGet (applyAll s ms).configured l = false) :
    runFrom i stop upc (ms ++ m :: ns) s =
      refuse (.unconfiguredLine l) ((applyAll s ms).withSeq (.busy i (upc + ms.length))) := by
  induction ms generalizing upc s with
  | nil =>
    rw [List.nil_append, runFrom, emit_of_unconfigured (s := s.withSeq (.busy i upc)) he hl]
    rfl
  | cons n ms ih =>
    obtain ⟨ha, hrun⟩ := hrun
    have issued : emit n (s.withSeq (.busy i upc)) = .next ((applyMicro s n).withSeq (.busy i upc)) := by
      rw [emit_of_allowed (s := s.withSeq (.busy i upc)) ha, applyMicro_withSeq]
    rw [List.cons_append, runFrom, issued, andThen_next, ih (runnable_withSeq.mpr hrun), applyAll_withSeq, applyAll_cons,
      withSeq_withSeq, List.length_cons, Nat.add_assoc, Nat.add_comm 1]
    rw [applyAll_withSeq]
    exact hl

/-- A frame drives every line but RW (R15, R77). -/
theorem frameSteps_drives (c : Config) (rs : Level) (b : Byte) {l : Line} (hl : l ≠ .rw) :
    ∃ m ∈ frameSteps c rs b, ∃ v, m.event = .wr l v := by
  cases l with
  | rw => exact absurd rfl hl
  | _ => simp [frameSteps]

/-- Only the last event of a frame moves the ghost (R26). -/
theorem frameSteps_take_no_end (c : Config) (rs : Level) (b : Byte) :
    ∀ m ∈ (frameSteps c rs b).take 14, m.ends = none := by
  simp [frameSteps]

/-- The first line that is not configured is met inside the first frame, so no frame has ended before it. -/
theorem framesSteps_no_end_before {c : Config} {s : State} {fs : List Frame} {ms ns : List Micro} {m : Micro}
    {l : Line} {v : Level} (hsteps : framesSteps c fs = ms ++ m :: ns) (he : m.event = .wr l v)
    (hl : lineGet s.configured l = false)
    (hbefore : ∀ n ∈ ms, ∀ l' v', n.event = .wr l' v' → lineGet s.configured l' = true) : ∀ n ∈ ms, n.ends = none := by
  have hrw : l ≠ .rw := by
    obtain ⟨k, w, he', hk⟩ | he' := framesSteps_event (show m ∈ framesSteps c fs by simp [hsteps])
    · rw [he, Event.wr.injEq] at he'
      rwa [he'.1]
    · rw [he] at he'
      cases he'
  cases fs with
  | nil => simp [framesSteps] at hsteps
  | cons f fs =>
    have frame : frameSteps c f.rs f.byte <+: ms ++ m :: ns := by
      rw [← hsteps]
      exact List.prefix_append _ _
    have before : ms <+: ms ++ m :: ns := List.prefix_append _ _
    have short : ms.length ≤ 14 := by
      by_contra hlong
      have whole : frameSteps c f.rs f.byte <+: ms :=
        List.prefix_of_prefix_length_le frame before (show 15 ≤ ms.length by omega)
      obtain ⟨n, hn, w, hw⟩ := frameSteps_drives c f.rs f.byte hrw
      rw [hbefore n (whole.subset hn) l w hw] at hl
      cases hl
    have inside : ms <+: (frameSteps c f.rs f.byte).take 14 :=
      List.prefix_of_prefix_length_le before ((List.take_prefix 14 _).trans frame) short
    exact fun n hn => frameSteps_take_no_end c f.rs f.byte n (inside.subset hn)

/-- So it is in every well-formed operation but `init`. -/
theorem planOf_no_end_before {i : Instr} {s : State} {ms ns : List Micro} {m : Micro} {l : Line} {v : Level}
    (hw : WellFormed i = true) (hi : i ≠ .init) (hsteps : (planOf s.config i).steps = ms ++ m :: ns)
    (he : m.event = .wr l v) (hl : lineGet s.configured l = false)
    (hbefore : ∀ n ∈ ms, ∀ l' v', n.event = .wr l' v' → lineGet s.configured l' = true) : ∀ n ∈ ms, n.ends = none := by
  obtain ⟨fs, -, hp⟩ | ⟨hinit, -⟩ | ⟨n, k, -, -, hp⟩ | ⟨hbad, -⟩ := planOf_shape s.config i
  · rw [hp] at hsteps
    exact framesSteps_no_end_before hsteps he hl hbefore
  · exact absurd hinit hi
  · rw [hp] at hsteps
    intro n' hn'
    have mem : n' ∈ ms ++ m :: ns := by simp [hn']
    rw [← hsteps] at mem
    exact nibbleSteps_no_end n' mem
  · rw [hw] at hbad
    cases hbad

/-- Settles O50: the events before the first such line are issued, and they configure nothing and end no frame. -/
theorem unconfiguredLineIsRefused : Obligations.UnconfiguredLineIsRefused := by
  rintro s i es rest l v ⟨hidle, hgood⟩ hw hi hevents hbefore hl
  rw [← planOf_events (planOf_stop_of_wellFormed s.config hw), Plan.events, List.map_eq_append_iff] at hevents
  obtain ⟨ms, ns', hsteps, rfl, hrest⟩ := hevents
  obtain ⟨m, ns, rfl, he, -⟩ := List.map_eq_cons_iff.mp hrest
  have drives : ∀ n ∈ ms, ∀ l' v', n.event = .wr l' v' → lineGet s.configured l' = true :=
    fun n hn l' v' hn' => hbefore l' v' (List.mem_map.mpr ⟨n, hn, hn'⟩)
  have noCfg : ∀ n ∈ ms, ∀ l', n.event ≠ .cfg l' :=
    fun n hn => planOf_no_cfg (c := s.config) hi n (by simp [hsteps, hn])
  have noEnd := planOf_no_end_before hw hi hsteps he hl drives
  have marks : (applyAll s ms).configured = s.configured := applyAll_configured_of_no_cfg noCfg s
  have run : Runnable ms (s.withSeq (.busy i 0)) := runnable_of_configured drives
  have met : lineGet (applyAll (s.withSeq (.busy i 0)) ms).configured l = false := by
    rwa [applyAll_withSeq, withSeq_configured, marks]
  rw [exec_eq_perform, perform_of_ready hidle hgood, hsteps, runFrom_of_unconfigured run he met, refuse, applyAll_withSeq,
    withSeq_withSeq, Nat.zero_add, List.length_map]
  congr 2
  refine state_ext ?_ ?_ ?_ ?_ ?_ ?_ ?_ ?_
  · simp
  · exact applyAll_line_of_no_cfg noCfg s
  · exact marks
  · rfl
  · simp
  · exact applyAll_aptr_of_no_end noEnd s
  · rfl
  · simp

end Sys2Proof.Proofs
end

section
/-! SUPPORT. Decimal text (30_encoding.md R57, R58; 41_text.md R69): the equations of `digits`, an induction along them, and what
follows for `dec`. -/

namespace Sys2Proof.Proofs

open Sys2Proof.Machine Sys2Proof.Safety Sys2Proof.Claims Sys2Proof.Laws

/-! ## The equations -/

theorem digitsFuel_of_lt (fuel : Nat) {m : Nat} (h : m < 10) : digitsFuel fuel m = [digitChar m] := by
  cases fuel with
  | zero => rfl
  | succ fuel => rw [digitsFuel, if_pos h]

/-- Fuel for all the digits is enough. -/
theorem digitsFuel_congr {f g m : Nat} (hf : m < 10 ^ (f + 1)) (hg : m < 10 ^ (g + 1)) :
    digitsFuel f m = digitsFuel g m := by
  induction f generalizing g m with
  | zero => rw [digitsFuel_of_lt 0 hf, digitsFuel_of_lt g hf]
  | succ f ih =>
    by_cases hm : m < 10
    · rw [digitsFuel_of_lt (f + 1) hm, digitsFuel_of_lt g hm]
    · cases g with
      | zero => exact absurd hg hm
      | succ g =>
        rw [digitsFuel, digitsFuel, if_neg hm, if_neg hm,
          ih (Nat.div_lt_of_lt_mul (by rwa [← Nat.pow_succ'])) (Nat.div_lt_of_lt_mul (by rwa [← Nat.pow_succ']))]

/-- A number has no more decimal digits than binary ones. -/
theorem lt_ten_pow_log2 (m : Nat) : m < 10 ^ (Nat.log2 m + 1) :=
  Nat.lt_of_lt_of_le Nat.lt_log2_self (Nat.pow_le_pow_left (by decide) _)

theorem digits_of_lt {m : Nat} (h : m < 10) : digits m = [digitChar m] := digitsFuel_of_lt _ h

theorem digits_of_ge {m : Nat} (h : 10 ≤ m) : digits m = digits (m / 10) ++ [digitChar (m % 10)] := by
  have quotient : m / 10 < 10 ^ (Nat.log2 m + 1) := Nat.lt_of_le_of_lt (Nat.div_le_self m 10) (lt_ten_pow_log2 m)
  have enough : m / 10 < 10 ^ (Nat.log2 (m / 10) + 1 + 1) :=
    Nat.lt_trans (lt_ten_pow_log2 (m / 10)) (Nat.pow_lt_pow_right (by decide) (Nat.lt_succ_self _))
  rw [digits, digitsFuel, if_neg (by omega), digits, digitsFuel_congr quotient enough]

/-- Settles O39: the two equations of `digits`, and `dec` by the sign. -/
theorem decimalTextFollowsItsEquations : Obligations.DecimalTextFollowsItsEquations :=
  ⟨fun _ h => digits_of_lt h, fun _ h => digits_of_ge h, fun _ h => if_neg (Int.not_lt.mpr h), fun _ h => if_pos h⟩

/-- What holds of one digit, and of a number when it holds of its quotient by ten, holds of every number's digits. -/
theorem digits_induction {P : Nat → List Byte → Prop} (one : ∀ m, m < 10 → P m [digitChar m])
    (more : ∀ m cs, 10 ≤ m → P (m / 10) cs → P m (cs ++ [digitChar (m % 10)])) (m : Nat) : P m (digits m) := by
  induction m using Nat.strong_induction_on with
  | _ m ih =>
    by_cases hm : m < 10
    · rw [digits_of_lt hm]
      exact one m hm
    · have hm' : 10 ≤ m := by omega
      rw [digits_of_ge hm']
      exact more m _ hm' (ih (m / 10) (Nat.div_lt_self (by omega) (by decide)))

/-! ## What the digits are -/

theorem digitChar_toNat {m : Nat} (h : m < 10) : (digitChar m).toNat = 0x30 + m := by
  rw [digitChar, chZero, BitVec.toNat_ofNat]
  omega

theorem digitChar_eq_zero_iff {m : Nat} (h : m < 10) : digitChar m = 0x30#8 ↔ m = 0 := by
  rw [← BitVec.toNat_inj, digitChar_toNat h, BitVec.toNat_ofNat]
  omega

theorem readDigits_snoc (acc : Nat) (cs : List Byte) (c : Byte) :
    readDigits acc (cs ++ [c]) = 10 * readDigits acc cs + (c.toNat - 0x30) := by
  induction cs generalizing acc with
  | nil => rfl
  | cons d cs ih => exact ih _

theorem readDigits_singleton (c : Byte) : readDigits 0 [c] = c.toNat - 0x30 := by
  have zero : readDigits 0 [] = 0 := rfl
  have one : readDigits 0 [c] = 10 * readDigits 0 [] + (c.toNat - 0x30) := readDigits_snoc 0 [] c
  rw [one, zero, Nat.mul_zero, Nat.zero_add]

/-- The digits read back as the number. -/
theorem readDigits_digits (m : Nat) : readDigits 0 (digits m) = m := by
  refine digits_induction (P := fun m cs => readDigits 0 cs = m) (fun m hm => ?_) (fun m cs hm ih => ?_) m
  · rw [readDigits_singleton, digitChar_toNat hm, Nat.add_sub_cancel_left]
  · rw [readDigits_snoc, ih, digitChar_toNat (Nat.mod_lt m (by decide))]
    omega

theorem allDigits_digitChar {m : Nat} (h : m < 10) : AllDigits [digitChar m] := by
  intro c hc
  rw [List.mem_singleton.mp hc, digitChar_toNat h]
  omega

theorem allDigits_digits (m : Nat) : AllDigits (digits m) := by
  refine digits_induction (P := fun _ cs => AllDigits cs) (fun m hm => allDigits_digitChar hm) (fun m cs _ ih => ?_) m
  intro c hc
  rcases List.mem_append.mp hc with hc | hc
  · exact ih c hc
  · exact allDigits_digitChar (Nat.mod_lt m (by decide)) c hc

/-- There is a first digit, and it is no zero but in the digits of 0. -/
theorem digits_head (m : Nat) : ∃ c, (digits m).head? = some c ∧ (m ≠ 0 → c ≠ 0x30#8) := by
  refine digits_induction (P := fun m cs => ∃ c, cs.head? = some c ∧ (m ≠ 0 → c ≠ 0x30#8)) (fun m hm => ?_)
    (fun m cs hm ih => ?_) m
  · exact ⟨_, rfl, mt (digitChar_eq_zero_iff hm).mp⟩
  · obtain ⟨c, hc, hzero⟩ := ih
    exact ⟨c, by rw [List.head?_append, hc]; rfl, fun _ => hzero (by omega)⟩

theorem digits_head_ne_zero {m : Nat} (h : m ≠ 0) : (digits m).head? ≠ some 0x30#8 := by
  obtain ⟨c, hc, hzero⟩ := digits_head m
  rw [hc, ne_eq, Option.some.injEq]
  exact hzero h

/-- A number below `10 ^ (k + 1)` has at most `k + 1` digits. -/
theorem digits_length_le (m : Nat) : ∀ k, m < 10 ^ (k + 1) → (digits m).length ≤ k + 1 := by
  refine digits_induction (P := fun m cs => ∀ k, m < 10 ^ (k + 1) → cs.length ≤ k + 1) (fun m _ k _ => ?_)
    (fun m cs hm ih k hk => ?_) m
  · rw [List.length_singleton]
    omega
  · cases k with
    | zero => omega
    | succ k =>
      have quotient : m / 10 < 10 ^ (k + 1) := Nat.div_lt_of_lt_mul (by rwa [← Nat.pow_succ'])
      rw [List.length_append, List.length_singleton]
      exact Nat.add_le_add_right (ih k quotient) 1

theorem digits_length_pos (m : Nat) : 1 ≤ (digits m).length := by
  obtain ⟨c, hc, -⟩ := digits_head m
  cases hd : digits m with
  | nil => simp [hd] at hc
  | cons d ds => simp

/-! ## The decimal text -/

theorem dec_of_nonneg {v : Int} (h : 0 ≤ v) : dec v = digits v.toNat := if_neg (Int.not_lt.mpr h)

theorem dec_of_neg {v : Int} (h : v < 0) : dec v = chMinus :: digits (-v).toNat := if_pos h

/-- A text of digits has no minus sign. -/
theorem readDecimal_of_allDigits {cs : List Byte} (h : AllDigits cs) : readDecimal cs = readDigits 0 cs := by
  cases cs with
  | nil => rfl
  | cons c cs =>
    have noMinus : c ≠ 0x2D#8 := by
      rintro rfl
      exact absurd (h 0x2D#8 (by simp)).1 (by decide)
    rw [readDecimal, if_neg noMinus]

theorem readDecimal_minus (cs : List Byte) : readDecimal (chMinus :: cs) = -(readDigits 0 cs : Int) := by
  rw [readDecimal]
  exact if_pos rfl

/-- Settles O40, by the sign. -/
theorem decimalTextIsCanonical : Obligations.DecimalTextIsCanonical := by
  intro v
  refine ⟨?_, fun h => ?_, fun h => ?_, rfl⟩
  · rcases lt_or_ge v 0 with h | h
    · rw [dec_of_neg h, readDecimal_minus, readDigits_digits]
      omega
    · rw [dec_of_nonneg h, readDecimal_of_allDigits (allDigits_digits _), readDigits_digits]
      omega
  · rw [dec_of_nonneg h]
    exact ⟨allDigits_digits _, fun hv => digits_head_ne_zero (by omega)⟩
  · exact ⟨_, dec_of_neg h, allDigits_digits _, digits_head_ne_zero (by omega)⟩

/-- Ten digits and a sign hold every 32-bit number. -/
theorem dec_length {v : Int} (hlow : -(2 ^ 31) ≤ v) (hhigh : v < 2 ^ 31) : 1 ≤ (dec v).length ∧ (dec v).length ≤ 11 := by
  rcases lt_or_ge v 0 with h | h
  · have ten : (digits (-v).toNat).length ≤ 10 := digits_length_le _ 9 (by omega)
    rw [dec_of_neg h, List.length_cons]
    omega
  · have ten : (digits v.toNat).length ≤ 10 := digits_length_le _ 9 (by omega)
    have some_digit := digits_length_pos v.toNat
    rw [dec_of_nonneg h]
    omega

/-- Settles O38: the text's frames, and its length from the range of the operand. -/
theorem writeIntSendsDecimalText : Obligations.WriteIntSendsDecimalText := by
  intro s number hs hc
  exact ⟨exec_framesSent (i := .writeInt number) nofun rfl rfl hs hc,
    dec_length (BitVec.le_toInt number) BitVec.toInt_lt⟩

end Sys2Proof.Proofs
end
